-- ==== Sys2Proof/Word.lean ====
section
/-! DEFINITION. The words of the bus and the bytes of BUF. -/

namespace Sys2Proof

/-- One word of the host's 32-bit bus (20_memory.md R50): every bus access and every command word is one. -/
abbrev Word := BitVec 32

/-- One byte of BUF (10_state.md R25). -/
abbrev Byte := BitVec 8

end Sys2Proof
end

