-- ==== Sys2Proof/Syntax.lean ====
section
/-! DEFINITION. The commands of MXE-1: one constructor per row of spec/opcode_table.json (30_encoding.md R73). -/

namespace Sys2Proof

/-- An index 0 to 7 of a general register (10_state.md R21); no command has an immediate (30_encoding.md R72). -/
abbrev Reg := Fin 8

/-- A command with its operand registers, in the order of the assembler syntax (30_encoding.md R78): destinations
first, then sources. -/
inductive Instr where
  /-- `MRTEST xs`: STATUS.PRIME <- MillerRabin(X[n]) (41_primality.md R102). -/
  | mrtest (n : Reg)
  /-- `GENPRIME xd, xs`: a prime in [2^b, 2^(b+1)) (41_primality.md R103). -/
  | genprime (d b : Reg)
  /-- `EGCD xg, xx, xy, xa, xb`: extended greatest common divisor (42_euclid.md R122). -/
  | egcd (g x y a b : Reg)
  /-- `MODINV xd, xe, xphi`: modular inverse (42_euclid.md R123). -/
  | modinv (d e phi : Reg)
  /-- `MODEXP xd, xbase, xexp, xmod`: modular exponentiation (43_modexp.md R140). -/
  | modexp (d base exp mod : Reg)
  /-- `BLKSIZE xd, xn`: block size for a modulus (44_block_codec.md R161). -/
  | blksize (d n : Reg)
  /-- `ENCODE xd, xn, xlen, xoff`: bytes of BUF to a block integer (44_block_codec.md R163). -/
  | encode (d n len off : Reg)
  /-- `DECODE xd, xm, xoff`: a block integer to bytes of BUF (44_block_codec.md R164). -/
  | decode (d m off : Reg)
deriving DecidableEq, Repr

/-- The registers a command reads, each as an unsigned operand (10_state.md R23), in the order its rule reads them. -/
def Instr.sources : Instr → List Reg
  | .mrtest n => [n]
  | .genprime _ b => [b]
  | .egcd _ _ _ a b => [a, b]
  | .modinv _ e phi => [e, phi]
  | .modexp _ base exp mod => [base, exp, mod]
  | .blksize _ n => [n]
  | .encode _ n len off => [n, len, off]
  | .decode _ m off => [m, off]

/-- The X registers a command may write. -/
def Instr.destinations : Instr → List Reg
  | .mrtest _ => []
  | .genprime d _ => [d]
  | .egcd g x y _ _ => [g, x, y]
  | .modinv d _ _ => [d]
  | .modexp d _ _ _ => [d]
  | .blksize d _ => [d]
  | .encode d _ _ _ => [d]
  | .decode d _ _ => [d]

end Sys2Proof
end

