-- ==== Sys2Proof/WellFormed.lean ====
section
/-! DEFINITION. Which commands are legal: the one constraint on operands that MXE-1 has (30_encoding.md R76). -/

namespace Sys2Proof

/-- A command is well formed unless it is an EGCD with two equal destinations (30_encoding.md R76, 42_euclid.md R122).
Register indices are in range by their type, and unused fields are not part of the syntax. -/
def Instr.wellFormed : Instr → Bool
  | .mrtest _ => true
  | .genprime _ _ => true
  | .egcd g x y _ _ => g != x && g != y && x != y
  | .modinv _ _ _ => true
  | .modexp _ _ _ _ => true
  | .blksize _ _ => true
  | .encode _ _ _ _ => true
  | .decode _ _ _ => true

end Sys2Proof
end

