-- ==== Sys2Proof/Decode.lean ====
section
/-! DEFINITION. Command words: the decoder (30_encoding.md R70 to R77), and after it the encoder. -/

namespace Sys2Proof

/-- Why a command word is illegal, by the clauses of 30_encoding.md R76 (and, for a byte string, that it is no whole word). -/
inductive Reject where
  /-- OPC is 0x00 or in 0x09 to 0xFF. -/
  | reservedOpcode
  /-- RES (bits 31:26) is not 0. -/
  | reservedBits
  /-- A field the command does not use is not 0. -/
  | unusedField
  /-- EGCD with two of D0, D1, D2 equal. -/
  | equalDestinations
  /-- Fewer than four bytes: no command word. -/
  | truncated
deriving DecidableEq, Repr

/-! The fields of the command word (30_encoding.md R71). -/

def fieldOPC (w : Word) : Byte := w.extractLsb' 0 8
def fieldD0 (w : Word) : Reg := (w.extractLsb' 8 3).toFin
def fieldD1 (w : Word) : Reg := (w.extractLsb' 11 3).toFin
def fieldD2 (w : Word) : Reg := (w.extractLsb' 14 3).toFin
def fieldS0 (w : Word) : Reg := (w.extractLsb' 17 3).toFin
def fieldS1 (w : Word) : Reg := (w.extractLsb' 20 3).toFin
def fieldS2 (w : Word) : Reg := (w.extractLsb' 23 3).toFin
def fieldRES (w : Word) : BitVec 6 := w.extractLsb' 26 6

/-- One row of 30_encoding.md R74: the word is the command `i` when RES is 0 and `(w AND mask) = match`. -/
def decodeRow (w mask mtch : Word) (i : Instr) : Except Reject Instr :=
  if fieldRES w ≠ 0 then .error .reservedBits
  else if w &&& mask ≠ mtch then .error .unusedField
  else if i.wellFormed then .ok i
  else .error .equalDestinations

/-- The decoder: total, every reserved word rejected by name (30_encoding.md R73, R74, R76, R77). -/
def decode (w : Word) : Except Reject Instr :=
  if fieldOPC w = 0x01#8 then
    decodeRow w 0xFFF1FFFF#32 0x00000001#32 (.mrtest (fieldS0 w))
  else if fieldOPC w = 0x02#8 then
    decodeRow w 0xFFF1F8FF#32 0x00000002#32 (.genprime (fieldD0 w) (fieldS0 w))
  else if fieldOPC w = 0x03#8 then
    decodeRow w 0xFF8000FF#32 0x00000003#32
      (.egcd (fieldD0 w) (fieldD1 w) (fieldD2 w) (fieldS0 w) (fieldS1 w))
  else if fieldOPC w = 0x04#8 then
    decodeRow w 0xFF81F8FF#32 0x00000004#32 (.modinv (fieldD0 w) (fieldS0 w) (fieldS1 w))
  else if fieldOPC w = 0x05#8 then
    decodeRow w 0xFC01F8FF#32 0x00000005#32 (.modexp (fieldD0 w) (fieldS0 w) (fieldS1 w) (fieldS2 w))
  else if fieldOPC w = 0x06#8 then
    decodeRow w 0xFFF1F8FF#32 0x00000006#32 (.blksize (fieldD0 w) (fieldS0 w))
  else if fieldOPC w = 0x07#8 then
    decodeRow w 0xFC01F8FF#32 0x00000007#32 (.encode (fieldD0 w) (fieldS0 w) (fieldS1 w) (fieldS2 w))
  else if fieldOPC w = 0x08#8 then
    decodeRow w 0xFF81F8FF#32 0x00000008#32 (.decode (fieldD0 w) (fieldS0 w) (fieldS1 w))
  else .error .reservedOpcode

/-- The four lanes of a word, lowest-numbered byte (bits 7:0) first: the bus is little-endian (20_memory.md R54). -/
def wordBytes (w : Word) : List Byte :=
  [w.extractLsb' 0 8, w.extractLsb' 8 8, w.extractLsb' 16 8, w.extractLsb' 24 8]

/-- The word whose lanes are `b0` (bits 7:0) to `b3` (bits 31:24) (20_memory.md R53, R54). -/
def bytesWord (b0 b1 b2 b3 : Byte) : Word := b3 ++ b2 ++ b1 ++ b0

/-- The decoder on a byte string in bus lane order: one command and the bytes after it. -/
def decodeBytes : List Byte → Except Reject (Instr × List Byte)
  | b0 :: b1 :: b2 :: b3 :: rest =>
    match decode (bytesWord b0 b1 b2 b3) with
    | .ok i => .ok (i, rest)
    | .error r => .error r
  | _ => .error .truncated

/-- The command that the decoder reads from an instruction whose bits are `w` (bit 0 the least significant); an
MXE-1 command is always one word of 32 bits (30_encoding.md R70). -/
def decodeTableWord (nbits w : Nat) : Option Instr :=
  if 32 < nbits ∨ 2 ^ 32 ≤ w then none
  else match decodeBytes (wordBytes (BitVec.ofNat 32 w)) with
    | .ok (i, _) => some i
    | .error _ => none

/-! The encoder. -/

/-- The command word with these fields and RES = 0: the layout picture of 30_encoding.md R71, bit 31 first. -/
def packWord (s2 s1 s0 d2 d1 d0 : Reg) (opc : Byte) : Word :=
  0#6 ++ BitVec.ofFin (w := 3) s2 ++ BitVec.ofFin (w := 3) s1 ++ BitVec.ofFin (w := 3) s0 ++
    BitVec.ofFin (w := 3) d2 ++ BitVec.ofFin (w := 3) d1 ++ BitVec.ofFin (w := 3) d0 ++ opc

/-- The word of a command, unused fields 0 (30_encoding.md R73, R74, R78). -/
def encode : Instr → Word
  | .mrtest n => packWord 0 0 n 0 0 0 0x01#8
  | .genprime d b => packWord 0 0 b 0 0 d 0x02#8
  | .egcd g x y a b => packWord 0 b a y x g 0x03#8
  | .modinv d e phi => packWord 0 phi e 0 0 d 0x04#8
  | .modexp d base exp mod => packWord mod exp base 0 0 d 0x05#8
  | .blksize d n => packWord 0 0 n 0 0 d 0x06#8
  | .encode d n len off => packWord off len n 0 0 d 0x07#8
  | .decode d m off => packWord 0 off m 0 0 d 0x08#8

end Sys2Proof
end

