-- ==== Sys2Proof/Config.lean ====
section
/-! DEFINITION. What an implementation fixes (the parameters of 00_scope.md R7) and the free values that the spec leaves open. -/

namespace Sys2Proof

/-- The OPEN parameters of 00_scope.md R7. State holds them (field `params`) and no step changes them, so a claim
over every state is a claim over every value of them (log entry 1). `NREG` is fixed at 8 (type `Reg`). -/
structure Params where
  /-- `W`: width in bits of every X magnitude. -/
  w : Nat
  /-- `BUF_BYTES`: size of BUF in bytes. -/
  bufBytes : Nat
  /-- `MR_ROUNDS`: Miller–Rabin rounds of one primality test. -/
  mrRounds : Nat
  /-- `PRIME_SEARCH_LIMIT`: candidates GENPRIME tries before it fails. -/
  primeSearchLimit : Nat
deriving DecidableEq, Repr

/-- The legal values of the parameters (00_scope.md R7, third column of its table). -/
abbrev Params.Legal (p : Params) : Prop :=
  (p.w % 32 = 0 ∧ 64 ≤ p.w ∧ p.w ≤ 4096) ∧
  (p.bufBytes % 4 = 0 ∧ p.w / 8 ≤ p.bufBytes ∧ p.bufBytes ≤ 8192) ∧
  (1 ≤ p.mrRounds ∧ p.mrRounds ≤ 255) ∧
  (1 ≤ p.primeSearchLimit ∧ p.primeSearchLimit ≤ 2 ^ 32 - 1)

namespace Config

/-- The configuration that 95_test_vectors.md names for its vectors. DESIGN CHOICE (log entry 1): State.reset uses it. -/
def vectorParams : Params := { w := 64, bufBytes := 64, mrRounds := 2, primeSearchLimit := 4 }

/-- FREE VALUE (10_state.md R37, log entry 5): the random source's answer number `k`, before it is brought into the
range of the draw, where State lists no answer. -/
opaque freeDraw (k : Nat) : Nat

/-- FREE VALUE (20_memory.md R59, log entry 6): what a read of SIGN, X or BUF while BUSY returns; `k` counts free values. -/
opaque freeBusyRead (k : Nat) : Word

/-- FREE VALUE (70_reset_and_hazards.md R231, R232, log entry 7): the magnitude of register `i`, before it is brought
below 2^W, after a reset that leaves it unspecified. -/
opaque freeMagnitude (k i : Nat) : Nat

/-- FREE VALUE (70_reset_and_hazards.md R231, R232, log entry 7): SIGN after a reset that leaves it unspecified. -/
opaque freeSign (k : Nat) : BitVec 8

/-- FREE VALUE (70_reset_and_hazards.md R231, R232, log entry 7): BUF[a] after a reset that leaves it unspecified. -/
opaque freeByte (k a : Nat) : Byte

end Config

end Sys2Proof
end

