-- ==== Sys2Proof/Machine/State.lean ====
section
/-! DEFINITION. The architectural state of the engine (10_state.md R39), what stops a step, and the state after power-on reset. -/

namespace Sys2Proof.Machine

/-- The error codes of STATUS.ERR that have a name (60_exceptions.md R202), in the order of their numbers 0 to 7.
Codes 8 to 15 are never written, so they are no values of the field (log entry 16). -/
inductive ErrorCode where
  /-- 0: the command completed without error. -/
  | ok
  /-- 1: PRIME_SEARCH_LIMIT candidates rejected (GENPRIME). -/
  | primeGenerationFailure
  /-- 2: gcd(e, phi) ≠ 1 (MODINV). -/
  | inverseNotFound
  /-- 3: the block integer is at least n (ENCODE). -/
  | blockTooLarge
  /-- 4: reserved for host software; the engine never writes it (60_exceptions.md R211). -/
  | malformedCiphertext
  /-- 5: the block's bytes are not well-formed UTF-8 (DECODE). -/
  | invalidUtf8
  /-- 6: an operand outside the command's domain (every legal command). -/
  | domainError
  /-- 7: the command word is illegal (30_encoding.md R76). -/
  | illegalCommand
deriving DecidableEq, Repr

/-- The faults of the model: there are none. "The engine raises no trap, exception or fault to any processor"
(60_exceptions.md R200), and beside the refused bus accesses "the model has no other fault or refusal outcome" (R216). -/
inductive Fault
deriving DecidableEq, Repr

/-- Why a step is refused. -/
inductive Refusal where
  /-- Raised by `exec` for an instruction without a meaning (none is left). Safe: the machine stops. -/
  | notModelled (mnemonic : String)
  /-- Raised by a host access of 8 or 16 bits, which "is outside this spec" (20_memory.md R56). Safe: no value is given. -/
  | subWordAccess
  /-- Raised by a 32-bit host access at an offset that is no multiple of 4 (20_memory.md R56). Safe: no value is given. -/
  | misalignedAccess
deriving DecidableEq, Repr

/-- The width of a host access on the 32-bit bus (20_memory.md R56). -/
inductive Width where
  | byte
  | half
  | word
deriving DecidableEq, Repr

/-- One host access to the register window: offsets have 14 bits (20_memory.md R50), relative to the window's base. -/
inductive Access where
  /-- `MemRead(off, …)`. -/
  | read (width : Width) (off : BitVec 14)
  /-- `MemWrite(off, …, data)`. -/
  | write (width : Width) (off : BitVec 14) (data : Word)
deriving DecidableEq, Repr

/-- Whose turn it is, one entry per event of the total order of 20_memory.md R60: the agents of 10_state.md R20 that
take steps of their own. -/
inductive Turn where
  /-- The host performs an access. -/
  | host (access : Access)
  /-- The engine commits the command in flight, if there is one. -/
  | engine
  /-- The reset input applies power-on reset. -/
  | reset
deriving DecidableEq, Repr

/-- The random source (10_state.md R37): the answers it will give to the next draws, and how many draws it has
answered. Past the end of the list its answers are free values (log entry 5). -/
structure RandomSource where
  answers : List Nat
  drawn : Nat
deriving DecidableEq, Repr

/-- BUF as (index, byte) pairs in one canonical form: see `Memory.wf` (log entry 3). -/
abbrev Memory := List Host.Cell

/-- The state of the engine (10_state.md R39), the parameters it was built with, and the model's own view of what is
outside: the turns still to come and the words that host reads have returned. -/
structure State where
  /-- The parameters W, BUF_BYTES, MR_ROUNDS, PRIME_SEARCH_LIMIT (00_scope.md R7); no step changes them. -/
  params : Params
  /-- X0 to X7: the magnitudes, each below 2^W (10_state.md R21). -/
  x : Vector Nat 8
  /-- SIGN: bit i is the sign of X[i], 1 means negative (10_state.md R22). -/
  sign : BitVec 8
  /-- BUF (10_state.md R25). -/
  buf : Memory
  /-- CTRL.IE (10_state.md R26). -/
  ie : Bool
  /-- STATUS.BUSY (10_state.md R28): a command is in flight. -/
  busy : Bool
  /-- STATUS.DONE (10_state.md R29). -/
  done : Bool
  /-- STATUS.PRIME (10_state.md R30). -/
  prime : Bool
  /-- STATUS.OVR (10_state.md R31). -/
  ovr : Bool
  /-- STATUS.ERR (10_state.md R32). -/
  err : ErrorCode
  /-- CMD: the last accepted command word (10_state.md R33); while BUSY, the command in flight (R36). -/
  cmd : Word
  /-- The random source (10_state.md R37); no reset changes it. -/
  random : RandomSource
  /-- The model's own: how many free values have been drawn (log entries 6 and 7). -/
  free : Nat
  /-- The model's own: the turns still to come, oldest first (log entry 4). -/
  agenda : List Turn
  /-- The model's own: the words that host reads have returned, newest first (log entry 8). -/
  reads : List Word
deriving DecidableEq, Repr

/-- A machine right after power-on reset (70_reset_and_hazards.md R231), built with parameters `p`, where X, SIGN, BUF
and the random source, which R231 leaves unspecified, hold the given values. -/
def State.powerOn (p : Params) (x : Vector Nat 8) (sign : BitVec 8) (buf : Memory) (random : RandomSource) : State where
  params := p
  x := x
  sign := sign
  buf := buf
  ie := false
  busy := false
  done := false
  prime := false
  ovr := false
  err := .ok
  cmd := 0x00000000#32
  random := random
  free := 0
  agenda := []
  reads := []

/-- The machine right after power-on reset. DESIGN CHOICE: the parameters are those of 95_test_vectors.md (log entry 1);
X and SIGN are 0 (log entry 2), BUF lists nothing (log entry 3), the random source lists no answer (log entry 5). -/
def State.reset : State :=
  State.powerOn Config.vectorParams (Vector.replicate 8 0) 0#8 [] { answers := [], drawn := 0 }

end Sys2Proof.Machine
end

