-- ==== Sys2Proof/Machine/Flags.lean ====
section
/-! DEFINITION. The control and status words: STATUS, CTRL, PARAM0, PARAM1 as the host reads them, their write effects, and the interrupt output (10_state.md R26 to R35, R38). -/

namespace Sys2Proof.Machine

/-- The number of an error code (60_exceptions.md R202). -/
def ErrorCode.number : ErrorCode → BitVec 4
  | .ok => 0#4
  | .primeGenerationFailure => 1#4
  | .inverseNotFound => 2#4
  | .blockTooLarge => 3#4
  | .malformedCiphertext => 4#4
  | .invalidUtf8 => 5#4
  | .domainError => 6#4
  | .illegalCommand => 7#4

/-- STATUS as a word: bit 0 BUSY, 1 DONE, 2 PRIME, 3 OVR, bits 11:8 ERR, the rest 0 (10_state.md R27). -/
def State.statusWord (s : State) : Word :=
  0#20 ++ s.err.number ++ 0#4 ++ BitVec.ofBool s.ovr ++ BitVec.ofBool s.prime ++ BitVec.ofBool s.done ++
    BitVec.ofBool s.busy

/-- A host write to STATUS: write 1 to clear DONE (bit 1) and OVR (bit 3); every other bit is ignored (10_state.md R27). -/
def State.writeStatus (s : State) (v : Word) : State :=
  { s with done := s.done && !v[1], ovr := s.ovr && !v[3] }

/-- CTRL as a word: bit 0 IE; SRST and the reserved bits read 0 (10_state.md R26). -/
def State.ctrlWord (s : State) : Word := 0#31 ++ BitVec.ofBool s.ie

/-- SIGN as a word: bits 7:0 are SIGN, the rest reads 0 (20_memory.md R51; log entry 10). -/
def State.signWord (s : State) : Word := 0#24 ++ s.sign

/-- PARAM0: W/32, BUF_BYTES/4, MR_ROUNDS and the edition 1 of MXE-1 (10_state.md R34). -/
def State.param0Word (s : State) : Word :=
  1#4 ++ BitVec.ofNat 8 s.params.mrRounds ++ BitVec.ofNat 12 (s.params.bufBytes / 4) ++
    BitVec.ofNat 8 (s.params.w / 32)

/-- PARAM1: PRIME_SEARCH_LIMIT (10_state.md R35). -/
def State.param1Word (s : State) : Word := BitVec.ofNat 32 s.params.primeSearchLimit

/-- The interrupt output: `CTRL.IE AND STATUS.DONE` at every moment, not stored (10_state.md R38, 60_exceptions.md R207). -/
def State.irq (s : State) : Bool := s.ie && s.done

end Sys2Proof.Machine
end

