-- ==== Sys2Proof/Machine/Operands.lean ====
section
/-! DEFINITION. Reading and writing X registers and the operand forms of the commands (00_scope.md R10, R11). -/

namespace Sys2Proof.Machine

/-- `X[i]`: the magnitude of register i (00_scope.md R11). -/
def State.mag (s : State) (i : Reg) : Nat := s.x[i]

/-- `SIGN[i]`: the sign bit of register i; true means 1 (10_state.md R22). -/
def State.signBit (s : State) (i : Reg) : Bool := s.sign.getLsbD i

/-- `val(i) = (−1)^SIGN[i] · X[i]` (10_state.md R22). -/
def State.val (s : State) (i : Reg) : Int := if s.signBit i then -(s.mag i : Int) else s.mag i

/-- SIGN with bit i set to `b`. -/
def signWith (sign : BitVec 8) (i : Reg) (b : Bool) : BitVec 8 :=
  if b then sign ||| BitVec.twoPow 8 i else sign &&& ~~~(BitVec.twoPow 8 i)

/-- Replaces magnitude and sign of register i; the one place where a command writes an X register. -/
def State.setReg (s : State) (i : Reg) (magnitude : Nat) (negative : Bool) : State :=
  { s with x := s.x.set i magnitude, sign := signWith s.sign i negative }

/-- `X[i] <- v`: writes a non-negative result, SIGN[i] <- 0 (00_scope.md R11). -/
def State.writeX (s : State) (i : Reg) (v : Nat) : State := s.setReg i v false

/-- `Xs[i] <- v`: writes a signed result, so that a zero is never written negative (00_scope.md R11). -/
def State.writeXs (s : State) (i : Reg) (v : Int) : State := s.setReg i v.natAbs (decide (v < 0))

/-- `uarg(i)`: reads X[i] as an unsigned operand; DomainError where SIGN[i] = 1, also when X[i] = 0
(00_scope.md R11, 10_state.md R23). -/
def State.uarg (s : State) (i : Reg) : Except ErrorCode Nat :=
  if s.signBit i then .error .domainError else .ok (s.mag i)

/-- `if c: raise e` (00_scope.md R11, 60_exceptions.md R201). -/
def raiseIf (c : Bool) (e : ErrorCode) : Except ErrorCode Unit := if c then .error e else .ok ()

/-- `bitlen(v)`: the least k with v < 2^k (00_scope.md R10). -/
def bitlen (v : Nat) : Nat := if v = 0 then 0 else v.log2 + 1

end Sys2Proof.Machine
end

