-- ==== Sys2Proof/Machine/Ops.lean ====
section
/-! DEFINITION. The shared operations: BUF's memory, the random source, acceptance, the commit with its error report, and the two resets. -/

namespace Sys2Proof.Machine

/-! BUF's memory (10_state.md R25). -/

/-- What a byte that no entry lists reads as. DESIGN CHOICE (log entry 3): BUF's reset contents are unspecified. -/
def Memory.unlisted : Byte := 0x00#8

/-- The canonical form: addresses strictly rising, and no entry equal to what an unlisted address reads as. -/
abbrev Memory.wf (m : Memory) : Prop :=
  m.Pairwise (fun c c' => c.1 < c'.1) ∧ ∀ c ∈ m, c.2 ≠ Memory.unlisted

/-- Every listed address is below `n`. -/
abbrev Memory.below (m : Memory) (n : Nat) : Prop := ∀ c ∈ m, c.1 < n

/-- `BUF[a]`. -/
def Memory.read (m : Memory) (a : Nat) : Byte :=
  match m with
  | [] => Memory.unlisted
  | (k, b) :: rest => if k = a then b else Memory.read rest a

/-- Puts a byte at `a`: no entry where the byte is what an unlisted address reads as. -/
def Memory.cons (a : Nat) (b : Byte) (m : Memory) : Memory := if b = Memory.unlisted then m else (a, b) :: m

/-- `BUF[a] <- b`, keeping the canonical form. -/
def Memory.write (m : Memory) (a : Nat) (b : Byte) : Memory :=
  match m with
  | [] => Memory.cons a b []
  | (k, c) :: rest =>
    if a < k then Memory.cons a b ((k, c) :: rest)
    else if a = k then Memory.cons a b rest
    else (k, c) :: Memory.write rest a b

/-- The bytes `BUF[a], …, BUF[a + n − 1]`, first byte at the lowest index (10_state.md R25). -/
def Memory.readBytes (m : Memory) (a : Nat) : Nat → List Byte
  | 0 => []
  | n + 1 => m.read a :: m.readBytes (a + 1) n

/-- Writes the bytes of a string from index `a` up. -/
def Memory.writeBytes (m : Memory) (a : Nat) : List Byte → Memory
  | [] => m
  | b :: rest => (m.write a b).writeBytes (a + 1) rest

/-- The memory that holds `f a` at every index `a < n`. -/
def Memory.ofFn (f : Nat → Byte) : Nat → Memory
  | 0 => []
  | n + 1 => (Memory.ofFn f n).write n (f n)

/-! The random source (10_state.md R37). -/

/-- Brings an answer into the range lo to hi of a draw; an answer that lies in the range is itself. -/
def fitDraw (lo hi v : Nat) : Nat :=
  if hi ≤ lo then lo
  else if lo ≤ v ∧ v ≤ hi then v
  else lo + v % (hi - lo + 1)

/-- One draw of a value from lo to hi: the next listed answer, else a free value (log entry 5). -/
def RandomSource.draw (r : RandomSource) (lo hi : Nat) : Nat × RandomSource :=
  match r.answers with
  | v :: rest => (fitDraw lo hi v, { answers := rest, drawn := r.drawn + 1 })
  | [] => (fitDraw lo hi (Config.freeDraw r.drawn), { answers := [], drawn := r.drawn + 1 })

/-- `draw_witness(n)`: a value in [2, n − 2]. -/
def RandomSource.drawWitness (r : RandomSource) (n : Nat) : Nat × RandomSource := r.draw 2 (n - 2)

/-- `draw_candidate(b)`: a value in [2^b, 2^(b+1) − 1]. -/
def RandomSource.drawCandidate (r : RandomSource) (b : Nat) : Nat × RandomSource := r.draw (2 ^ b) (2 ^ (b + 1) - 1)

/-! The life cycle of a command. -/

/-- A host write of a word to CMD (60_exceptions.md R205): dropped with OVR set while BUSY, else accepted, whatever its bits. -/
def State.writeCmd (s : State) (w : Word) : State :=
  if s.busy then { s with ovr := true }
  else { s with cmd := w, busy := true, done := false, err := .ok }

/-- The command in flight, as the decoder reads it from CMD (60_exceptions.md R204: `w <- CMD`). -/
def State.fetch (s : State) : Except Reject Instr := decode s.cmd

/-- The end of every commit (60_exceptions.md R204): ERR records the outcome, BUSY <- 0, DONE <- 1. This is the one
place where an error is reported: the engine has no trap entry, no saved state and no vector (R200). -/
def State.finish (s : State) (code : ErrorCode) : State := { s with busy := false, done := true, err := code }

/-- The commit (60_exceptions.md R204): the writes of a successful command all at once, and nothing but the code of a
failed one (R201). -/
def commit (s : State) (outcome : Except ErrorCode State) : Host.Outcome State Fault Refusal :=
  match outcome with
  | .ok written => .next (written.finish .ok)
  | .error e => .next (s.finish e)

/-- The state once the turn at the head of the agenda has been taken off it (log entry 4). -/
def State.afterTurn (s : State) : State := { s with agenda := s.agenda.tail }

/-! Resets. -/

/-- X, SIGN and BUF hold values the spec does not fix (70_reset_and_hazards.md R231, R232; log entry 7). -/
def State.scramble (s : State) : State :=
  { s with
    x := Vector.ofFn fun i : Fin 8 => Config.freeMagnitude s.free i % 2 ^ s.params.w
    sign := Config.freeSign s.free
    buf := Memory.ofFn (Config.freeByte s.free) s.params.bufBytes
    free := s.free + 1 }

/-- CTRL.IE, all of STATUS and CMD take their reset values (70_reset_and_hazards.md R231, R232). -/
def State.resetControl (s : State) : State :=
  { s with ie := false, busy := false, done := false, prime := false, ovr := false, err := .ok, cmd := 0x00000000#32 }

/-- Power-on reset applied to a running machine (70_reset_and_hazards.md R231): the random source is not reset, the
parameters are constants. -/
def State.powerOnReset (s : State) : State := s.scramble.resetControl

/-- Soft reset (70_reset_and_hazards.md R232): a command in flight is abandoned without commit and leaves X, SIGN and
BUF unspecified; without one they keep their values. -/
def State.softReset (s : State) : State := if s.busy then s.scramble.resetControl else s.resetControl

/-- A host write to CTRL: bit 1 = 1 performs soft reset whatever bit 0 holds, else bit 0 is written to IE
(10_state.md R26, 70_reset_and_hazards.md R232). -/
def State.writeCtrl (s : State) (v : Word) : State :=
  if v[1] then s.softReset else { s with ie := v[0] }

end Sys2Proof.Machine
end

