-- ==== Sys2Proof/Machine/Bus.lean ====
section
/-! DEFINITION. The register window as the host sees it: 20_memory.md R50 to R59. -/

namespace Sys2Proof.Machine

/-- What a word of the register window is (20_memory.md R51). -/
inductive Place where
  | ctrl
  | status
  | cmd
  | param0
  | sign
  | param1
  /-- Limb `j` of X[i]. -/
  | limb (i : Reg) (j : Nat)
  /-- BUF word `k`. -/
  | bufWord (k : Nat)
  /-- An offset the map does not name, an unused limb or an unused BUF word (20_memory.md R55). -/
  | reserved
deriving DecidableEq, Repr

/-- The register window map (20_memory.md R51 to R53, R55), for an offset that is a multiple of 4. -/
def place (p : Params) (off : BitVec 14) : Place :=
  let a := off.toNat
  if a = 0x0000 then .ctrl
  else if a = 0x0004 then .status
  else if a = 0x0008 then .cmd
  else if a = 0x000C then .param0
  else if a = 0x0010 then .sign
  else if a = 0x0014 then .param1
  else if a < 0x1000 then .reserved
  else if a < 0x2000 then
    if a % 0x200 / 4 < p.w / 32 then .limb (Fin.ofNat 8 ((a - 0x1000) / 0x200)) (a % 0x200 / 4) else .reserved
  else
    if (a - 0x2000) / 4 < p.bufBytes / 4 then .bufWord ((a - 0x2000) / 4) else .reserved

/-- Whether a read while BUSY returns a value the spec does not fix (20_memory.md R59). -/
def Place.hiddenWhileBusy : Place → Bool
  | .sign | .limb _ _ | .bufWord _ => true
  | .ctrl | .status | .cmd | .param0 | .param1 | .reserved => false

/-- Limb `j` of a magnitude: bits 32j+31 to 32j (20_memory.md R52). -/
def limbOf (v j : Nat) : Word := BitVec.ofNat 32 (v >>> (32 * j))

/-- The magnitude with limb `j` replaced and every other limb kept (20_memory.md R52). -/
def withLimb (v j : Nat) (w : Word) : Nat :=
  v % 2 ^ (32 * j) + w.toNat * 2 ^ (32 * j) + v / 2 ^ (32 * (j + 1)) * 2 ^ (32 * (j + 1))

/-- BUF word `k`, little-endian lanes (20_memory.md R53). -/
def State.bufWordOf (s : State) (k : Nat) : Word :=
  bytesWord (s.buf.read (4 * k)) (s.buf.read (4 * k + 1)) (s.buf.read (4 * k + 2)) (s.buf.read (4 * k + 3))

/-- The word a read returns where R59 does not leave it open. -/
def State.readPlace (s : State) : Place → Word
  | .ctrl => s.ctrlWord
  | .status => s.statusWord
  | .cmd => s.cmd
  | .param0 => s.param0Word
  | .sign => s.signWord
  | .param1 => s.param1Word
  | .limb i j => limbOf (s.mag i) j
  | .bufWord k => s.bufWordOf k
  | .reserved => 0#32

/-- A host read: the word it returns goes to `reads`. While BUSY a read of SIGN, X or BUF returns a free value
(20_memory.md R59, log entry 6). -/
def State.hostRead (s : State) (pl : Place) : State :=
  if s.busy && pl.hiddenWhileBusy then
    { s with reads := Config.freeBusyRead s.free :: s.reads, free := s.free + 1 }
  else { s with reads := s.readPlace pl :: s.reads }

/-- A write to an operand register: dropped with OVR set while BUSY (20_memory.md R59, 10_state.md R31). -/
def State.unlessBusy (s t : State) : State := if s.busy then { s with ovr := true } else t

/-- A host write (20_memory.md R51 to R55, R59). -/
def State.hostWrite (s : State) (v : Word) : Place → State
  | .ctrl => s.writeCtrl v
  | .status => s.writeStatus v
  | .cmd => s.writeCmd v
  | .param0 => s
  | .sign => s.unlessBusy { s with sign := v.extractLsb' 0 8 }
  | .param1 => s
  | .limb i j => s.unlessBusy { s with x := s.x.set i (withLimb (s.mag i) j v) }
  | .bufWord k => s.unlessBusy { s with buf := s.buf.writeBytes (4 * k) (wordBytes v) }
  | .reserved => s

/-- One access of the host; only aligned 32-bit accesses have a meaning (20_memory.md R56). -/
def hostStep (s : State) : Access → Host.Outcome State Fault Refusal
  | .read width off =>
    if width ≠ .word then .refused .subWordAccess
    else if off.toNat % 4 ≠ 0 then .refused .misalignedAccess
    else .next (s.hostRead (place s.params off))
  | .write width off v =>
    if width ≠ .word then .refused .subWordAccess
    else if off.toNat % 4 ≠ 0 then .refused .misalignedAccess
    else .next (s.hostWrite v (place s.params off))

end Sys2Proof.Machine
end

