-- ==== Sys2Proof/Machine/BlockCodec.lean ====
section
/-! DEFINITION. The block encoder and decoder: BLKSIZE, ENCODE, DECODE (44_block_codec.md R160 to R165). -/

namespace Sys2Proof.Machine

/-- `block_int_size(n) = ⌊bitlen(n)/8⌋ − 1` (44_block_codec.md R160). -/
def blockIntSize (n : Nat) : Int := ((bitlen n / 8 : Nat) : Int) - 1

/-- `be_int(s)`: the first byte is the most significant (44_block_codec.md R162). -/
def beInt (bytes : List Byte) : Nat := bytes.foldl (fun acc b => acc * 256 + b.toNat) 0

/-- The `n` low bytes of m, most significant first. -/
def beDigits (m : Nat) : Nat → List Byte
  | 0 => []
  | n + 1 => BitVec.ofNat 8 (m >>> (8 * n)) :: beDigits m n

/-- `⌈bitlen(m)/8⌉` (44_block_codec.md R162). -/
def byteLength (m : Nat) : Nat := (bitlen m + 7) / 8

/-- `be_bytes(m)`: m as ⌈bitlen(m)/8⌉ big-endian bytes; `be_bytes(0) = []` (44_block_codec.md R162). -/
def beBytes (m : Nat) : List Byte := beDigits m (byteLength m)

/-- A range of byte values, both ends included. -/
structure ByteRange where
  lo : Nat
  hi : Nat
deriving DecidableEq, Repr

/-- Whether a byte lies in a range. -/
def ByteRange.has (r : ByteRange) (b : Byte) : Bool := r.lo ≤ b.toNat && b.toNat ≤ r.hi

/-- The table of 44_block_codec.md R165, row by row: the ranges of the first, second, third and fourth byte. -/
def utf8Rows : List (List ByteRange) :=
  [ [⟨0x00, 0x7F⟩],
    [⟨0xC2, 0xDF⟩, ⟨0x80, 0xBF⟩],
    [⟨0xE0, 0xE0⟩, ⟨0xA0, 0xBF⟩, ⟨0x80, 0xBF⟩],
    [⟨0xE1, 0xEC⟩, ⟨0x80, 0xBF⟩, ⟨0x80, 0xBF⟩],
    [⟨0xED, 0xED⟩, ⟨0x80, 0x9F⟩, ⟨0x80, 0xBF⟩],
    [⟨0xEE, 0xEF⟩, ⟨0x80, 0xBF⟩, ⟨0x80, 0xBF⟩],
    [⟨0xF0, 0xF0⟩, ⟨0x90, 0xBF⟩, ⟨0x80, 0xBF⟩, ⟨0x80, 0xBF⟩],
    [⟨0xF1, 0xF3⟩, ⟨0x80, 0xBF⟩, ⟨0x80, 0xBF⟩, ⟨0x80, 0xBF⟩],
    [⟨0xF4, 0xF4⟩, ⟨0x80, 0x8F⟩, ⟨0x80, 0xBF⟩, ⟨0x80, 0xBF⟩] ]

/-- Takes one byte sequence of a row off the front of a string: the rest, where the string begins with one. -/
def stripRow : List ByteRange → List Byte → Option (List Byte)
  | [], s => some s
  | _ :: _, [] => none
  | r :: row, b :: s => if r.has b then stripRow row s else none

/-- Reads a string sequence by sequence; at most one row fits a first byte. `fuel` bounds the sequences. -/
def utf8Scan (fuel : Nat) (s : List Byte) : Bool :=
  match fuel with
  | 0 => s.isEmpty
  | fuel + 1 =>
    match s with
    | [] => true
    | _ :: _ =>
      match utf8Rows.findSome? (fun row => stripRow row s) with
      | some rest => utf8Scan fuel rest
      | none => false

/-- `Utf8WellFormed(s)` (44_block_codec.md R165). -/
def utf8WellFormed (s : List Byte) : Bool := utf8Scan s.length s

/-- BLKSIZE's pseudocode (44_block_codec.md R161). -/
def blockSize (d n : Reg) (s : State) : Except ErrorCode State := do
  let n ← s.uarg n
  return s.writeXs d (blockIntSize n)

/-- BLKSIZE (44_block_codec.md R161). -/
def execBlksize (d n : Reg) (s : State) : Host.Outcome State Fault Refusal :=
  commit s (blockSize d n s)

/-- ENCODE's pseudocode (44_block_codec.md R163). -/
def encodeBlock (d n len off : Reg) (s : State) : Except ErrorCode State := do
  let n ← s.uarg n
  let L ← s.uarg len
  let off ← s.uarg off
  raiseIf (s.params.w / 8 < L) .domainError
  raiseIf (s.params.bufBytes < off + L) .domainError
  let m := beInt (s.buf.readBytes off L)
  raiseIf (n ≤ m) .blockTooLarge
  return s.writeX d m

/-- ENCODE (44_block_codec.md R163). -/
def execEncode (d n len off : Reg) (s : State) : Host.Outcome State Fault Refusal :=
  commit s (encodeBlock d n len off s)

/-- DECODE's pseudocode (44_block_codec.md R164). -/
def decodeBlock (d m off : Reg) (s : State) : Except ErrorCode State := do
  let m ← s.uarg m
  let off ← s.uarg off
  raiseIf (s.params.bufBytes < off + (beBytes m).length) .domainError
  raiseIf (!utf8WellFormed (beBytes m)) .invalidUtf8
  return { s with buf := s.buf.writeBytes off (beBytes m) }.writeX d (beBytes m).length

/-- DECODE (44_block_codec.md R164). -/
def execDecode (d m off : Reg) (s : State) : Host.Outcome State Fault Refusal :=
  commit s (decodeBlock d m off s)

end Sys2Proof.Machine
end

