-- ==== Sys2Proof/Machine/Euclid.lean ====
section
/-! DEFINITION. The extended-Euclidean inverse calculator: EGCD and MODINV (42_euclid.md R120, R122, R123). -/

namespace Sys2Proof.Machine

/-- The recursion of 42_euclid.md R120; `fuel` bounds its depth (a falls at every call, so a + 1 is enough). -/
def egcdLoop (fuel a b : Nat) : Nat × Int × Int :=
  match fuel with
  | 0 => (b, 0, 1)
  | fuel + 1 =>
    if a = 0 then (b, 0, 1)
    else
      let (g, x1, y1) := egcdLoop fuel (b % a) a
      (g, y1 - ((b / a : Nat) : Int) * x1, x1)

/-- `egcd(a, b)`: the triple (g, x, y) with a·x + b·y = g that the recursion of 42_euclid.md R120 gives. -/
def egcd (a b : Nat) : Nat × Int × Int := egcdLoop (a + 1) a b

/-- EGCD's pseudocode (42_euclid.md R122). Equal destinations are IllegalCommand; the decoder refuses such a word
before it comes here (log entry 14). -/
def extendedGcd (dg dx dy a b : Reg) (s : State) : Except ErrorCode State := do
  raiseIf (dg = dx || dg = dy || dx = dy) .illegalCommand
  let a ← s.uarg a
  let b ← s.uarg b
  let (g, x, y) := egcd a b
  return ((s.writeX dg g).writeXs dx x).writeXs dy y

/-- EGCD (42_euclid.md R122). -/
def execEgcd (dg dx dy a b : Reg) (s : State) : Host.Outcome State Fault Refusal :=
  commit s (extendedGcd dg dx dy a b s)

/-- MODINV's pseudocode (42_euclid.md R123). -/
def modularInverse (d e phi : Reg) (s : State) : Except ErrorCode State := do
  let e ← s.uarg e
  let phi ← s.uarg phi
  raiseIf (phi = 0) .domainError
  let (g, x, _) := egcd e phi
  raiseIf (g ≠ 1) .inverseNotFound
  return s.writeX d (x % (phi : Int)).toNat

/-- MODINV (42_euclid.md R123). -/
def execModinv (d e phi : Reg) (s : State) : Host.Outcome State Fault Refusal :=
  commit s (modularInverse d e phi s)

end Sys2Proof.Machine
end

