-- ==== Sys2Proof/Machine/Modexp.lean ====
section
/-! DEFINITION. The modular exponentiation engine: MODEXP (43_modexp.md R140, R141). -/

namespace Sys2Proof.Machine

/-- The loop of 43_modexp.md R141 on running result `r`, base `b` and exponent `e`, least significant exponent bit first;
`fuel` bounds the iterations, and the loop ends earlier when the exponent is exhausted. -/
def modExpLoop (M : Nat) (fuel r b e : Nat) : Nat :=
  match fuel with
  | 0 => r
  | fuel + 1 =>
    if e = 0 then r
    else modExpLoop M fuel (if e % 2 = 1 then r * b % M else r) (b * b % M) (e / 2)

/-- `ModExp(B, E, M)` (43_modexp.md R141): starts at 1 mod M and B mod M and runs bitlen(E) iterations. -/
def modExp (B E M : Nat) : Nat := modExpLoop M (bitlen E) (1 % M) (B % M) E

/-- MODEXP's pseudocode (43_modexp.md R140). -/
def modexp (d base exp mod : Reg) (s : State) : Except ErrorCode State := do
  let B ← s.uarg base
  let E ← s.uarg exp
  let M ← s.uarg mod
  raiseIf (M = 0) .domainError
  return s.writeX d (modExp B E M)

/-- MODEXP (43_modexp.md R140). -/
def execModexp (d base exp mod : Reg) (s : State) : Host.Outcome State Fault Refusal :=
  commit s (modexp d base exp mod s)

end Sys2Proof.Machine
end

