-- ==== Sys2Proof/Machine/Primality.lean ====
section
/-! DEFINITION. The primality test engine: MRTEST and GENPRIME (41_primality.md R100, R102, R103). -/

namespace Sys2Proof.Machine

/-- The largest k with 2^k dividing m, and m div 2^k (41_primality.md R100: s and d of n − 1), for 0 < m < 2^fuel. -/
def splitTwos (fuel m : Nat) : Nat × Nat :=
  match fuel with
  | 0 => (0, m)
  | fuel + 1 =>
    if m % 2 = 0 then
      let (k, d) := splitTwos fuel (m / 2)
      (k + 1, d)
    else (0, m)

/-- The squaring loop of one round (41_primality.md R100): whether one of the next `k` squarings of x gives n − 1. -/
def squaresToMinusOne (n : Nat) (k x : Nat) : Bool :=
  match k with
  | 0 => false
  | k + 1 => x * x % n == n - 1 || squaresToMinusOne n k (x * x % n)

/-- Whether a round with witness draw `a` passes, for n − 1 = 2^s · d (41_primality.md R100). -/
def roundPasses (n s d a : Nat) : Bool :=
  modExp a d n == 1 || modExp a d n == n - 1 || squaresToMinusOne n (s - 1) (modExp a d n)

/-- The rounds of 41_primality.md R100, one witness draw per round started, stopping at the first witness. -/
def mrRounds (n s d : Nat) (rounds : Nat) (r : RandomSource) : Bool × RandomSource :=
  match rounds with
  | 0 => (true, r)
  | rounds + 1 =>
    let (a, r) := r.drawWitness n
    if roundPasses n s d a then mrRounds n s d rounds r else (false, r)

/-- `MillerRabin(n)` (41_primality.md R100): true means accepted as prime (1); also the random source after its draws. -/
def millerRabin (rounds n : Nat) (r : RandomSource) : Bool × RandomSource :=
  if n < 2 then (false, r)
  else if n = 2 ∨ n = 3 then (true, r)
  else if n % 2 = 0 then (false, r)
  else
    let (s, d) := splitTwos (bitlen n) (n - 1)
    mrRounds n s d rounds r

/-- MRTEST's pseudocode (41_primality.md R102). -/
def mrtest (n : Reg) (s : State) : Except ErrorCode State := do
  let n ← s.uarg n
  let (accepted, random) := millerRabin s.params.mrRounds n s.random
  return { s with prime := accepted, random := random }

/-- MRTEST (41_primality.md R102). -/
def execMrtest (n : Reg) (s : State) : Host.Outcome State Fault Refusal :=
  commit s (mrtest n s)

/-- The search loop of 41_primality.md R103 over at most `limit` candidates: the first accepted one, if any, and the
random source after all draws. -/
def searchPrime (rounds b : Nat) (limit : Nat) (r : RandomSource) : Option Nat × RandomSource :=
  match limit with
  | 0 => (none, r)
  | limit + 1 =>
    let (c, r) := r.drawCandidate b
    let (accepted, r) := millerRabin rounds c r
    if accepted then (some c, r) else searchPrime rounds b limit r

/-- GENPRIME's domain checks: the range exponent b (41_primality.md R103). -/
def genprimeExponent (b : Reg) (s : State) : Except ErrorCode Nat := do
  let b ← s.uarg b
  raiseIf (s.params.w ≤ b) .domainError
  return b

/-- GENPRIME's end (41_primality.md R103): writes the accepted candidate, or fails when the search found none. -/
def genprimeResult (d : Reg) (s : State) : Option Nat → Except ErrorCode State
  | some c => .ok (s.writeX d c)
  | none => .error .primeGenerationFailure

/-- GENPRIME (41_primality.md R103). The draws it took stay taken when the search fails (log entry 12). -/
def execGenprime (d b : Reg) (s : State) : Host.Outcome State Fault Refusal :=
  match genprimeExponent b s with
  | .error e => commit s (.error e)
  | .ok b =>
    let (found, random) := searchPrime s.params.mrRounds b s.params.primeSearchLimit s.random
    let s := { s with random := random }
    commit s (genprimeResult d s found)

end Sys2Proof.Machine
end

