-- ==== Sys2Proof/Machine/Dispatch.lean ====
section
/-! DEFINITION. The meaning of a command in flight at its commit: one arm per command. -/

namespace Sys2Proof.Machine

def exec (i : Instr) (s : State) : Host.Outcome State Fault Refusal :=
  match i with
  | .mrtest n => Sys2Proof.Machine.execMrtest n s
  | .genprime d b => Sys2Proof.Machine.execGenprime d b s
  | .egcd g x y a b => Sys2Proof.Machine.execEgcd g x y a b s
  | .modinv d e phi => Sys2Proof.Machine.execModinv d e phi s
  | .modexp d base exp mod => Sys2Proof.Machine.execModexp d base exp mod s
  | .blksize d n => Sys2Proof.Machine.execBlksize d n s
  | .encode d n len off => Sys2Proof.Machine.execEncode d n len off s
  | .decode d m off => Sys2Proof.Machine.execDecode d m off s

end Sys2Proof.Machine
end

