-- ==== Sys2Proof/Machine/Step.lean ====
section
/-! DEFINITION. One step of the machine: the next turn of the agenda. -/

namespace Sys2Proof.Machine

/-- The engine's step (60_exceptions.md R204), enabled exactly while BUSY = 1: the commit of the command in flight, an
illegal word with IllegalCommand. A turn of the idle engine changes nothing (log entry 15). -/
def engineStep (s : State) : Host.Outcome State Fault Refusal :=
  if s.busy then
    match s.fetch with
    | .ok i => exec i s
    | .error _ => commit s (.error .illegalCommand)
  else .next s

/-- One step: the turn at the head of the agenda (10_state.md R20, 20_memory.md R60); with no turn listed the engine's
(70_reset_and_hazards.md R238: a command in flight eventually commits; log entry 4). -/
def step (s : State) : Host.Outcome State Fault Refusal :=
  match s.agenda with
  | [] => engineStep s.afterTurn
  | .host a :: _ => hostStep s.afterTurn a
  | .engine :: _ => engineStep s.afterTurn
  | .reset :: _ => .next s.afterTurn.powerOnReset

/-- The state in which the command word has been accepted and the engine's turn is next (log entry 13): what a host
write to CMD leaves of an idle engine (60_exceptions.md R205). -/
def State.withFetchWord (s : State) (nbits w : Nat) : State :=
  { s with
    cmd := BitVec.ofNat 32 (w % 2 ^ nbits)
    busy := true
    done := false
    err := .ok
    agenda := .engine :: s.agenda }

end Sys2Proof.Machine
end

