-- ==== Sys2Proof/Safety.lean ====
section
/-! DEFINITION. The terms that claims use: the invariant of the state, what a commit leaves, frames, the events that change the state, and the spec's own side conditions. -/

namespace Sys2Proof.Machine

/-! ## The invariant -/

/-- What every reachable state satisfies: legal parameters (00_scope.md R7), magnitudes below 2^W (10_state.md R21), BUF
in canonical form with its indices below BUF_BYTES (R25), DONE and ERR cleared while a command is in flight (R29,
R32), and the code 4 never written (60_exceptions.md R211). -/
structure State.Inv (s : State) : Prop where
  legal : s.params.Legal
  mag_lt : ∀ i, s.mag i < 2 ^ s.params.w
  buf_wf : s.buf.wf
  buf_below : s.buf.below s.params.bufBytes
  done_of_busy : s.busy = true → s.done = false
  err_of_busy : s.busy = true → s.err = .ok
  err_written : s.err ≠ .malformedCiphertext

/-! ## What a commit leaves -/

/-- The commit has ended the command with this code: BUSY 0, DONE 1, ERR the code (60_exceptions.md R204). -/
structure Committed (t : State) (code : ErrorCode) : Prop where
  busy : t.busy = false
  done : t.done = true
  err : t.err = code

/-- What no command changes, and every X register with its sign bit but those in `ds`. BUF, STATUS.PRIME and the random
source are said apart, since some commands write them. -/
structure Frame (ds : List Reg) (s t : State) : Prop where
  mag : ∀ j, j ∉ ds → t.mag j = s.mag j
  signBit : ∀ j, j ∉ ds → t.signBit j = s.signBit j
  params : t.params = s.params
  ie : t.ie = s.ie
  ovr : t.ovr = s.ovr
  cmd : t.cmd = s.cmd
  free : t.free = s.free
  agenda : t.agenda = s.agenda
  reads : t.reads = s.reads

/-- Every byte of BUF reads as before. -/
def SameBuf (s t : State) : Prop := ∀ a, t.buf.read a = s.buf.read a

/-- The state that a command ending in error `e` leaves: nothing but the commit's own fields (60_exceptions.md R201). -/
def State.failed (s : State) (e : ErrorCode) : State := { s with busy := false, done := true, err := e }

/-- The codes a command may end with (60_exceptions.md R202 code 0, R203). -/
def allowedCodes : Instr → List ErrorCode
  | .mrtest _ => [.ok, .domainError, .illegalCommand]
  | .genprime _ _ => [.ok, .primeGenerationFailure, .domainError, .illegalCommand]
  | .egcd _ _ _ _ _ => [.ok, .domainError, .illegalCommand]
  | .modinv _ _ _ => [.ok, .inverseNotFound, .domainError, .illegalCommand]
  | .modexp _ _ _ _ => [.ok, .domainError, .illegalCommand]
  | .blksize _ _ => [.ok, .domainError, .illegalCommand]
  | .encode _ _ _ _ => [.ok, .blockTooLarge, .domainError, .illegalCommand]
  | .decode _ _ _ => [.ok, .invalidUtf8, .domainError, .illegalCommand]

/-! ## Command words -/

/-- The 3-bit field of a command word whose lowest bit is `lo` (30_encoding.md R71). -/
def wordField (w : Word) (lo : Nat) : Nat := w.toNat / 2 ^ lo % 8

/-- The illegal command words, clause by clause of 30_encoding.md R76, with the unused fields of R73. -/
def IllegalWord (w : Word) : Prop :=
  let opc := w.toNat % 256
  let d0 := wordField w 8
  let d1 := wordField w 11
  let d2 := wordField w 14
  let s1 := wordField w 20
  let s2 := wordField w 23
  opc = 0x00 ∨ 0x09 ≤ opc ∨ w.toNat / 2 ^ 26 ≠ 0 ∨
  (opc = 0x01 ∧ (d0 ≠ 0 ∨ d1 ≠ 0 ∨ d2 ≠ 0 ∨ s1 ≠ 0 ∨ s2 ≠ 0)) ∨
  (opc = 0x02 ∧ (d1 ≠ 0 ∨ d2 ≠ 0 ∨ s1 ≠ 0 ∨ s2 ≠ 0)) ∨
  (opc = 0x03 ∧ (s2 ≠ 0 ∨ d0 = d1 ∨ d0 = d2 ∨ d1 = d2)) ∨
  (opc = 0x04 ∧ (d1 ≠ 0 ∨ d2 ≠ 0 ∨ s2 ≠ 0)) ∨
  (opc = 0x05 ∧ (d1 ≠ 0 ∨ d2 ≠ 0)) ∨
  (opc = 0x06 ∧ (d1 ≠ 0 ∨ d2 ≠ 0 ∨ s1 ≠ 0 ∨ s2 ≠ 0)) ∨
  (opc = 0x07 ∧ (d1 ≠ 0 ∨ d2 ≠ 0)) ∨
  (opc = 0x08 ∧ (d1 ≠ 0 ∨ d2 ≠ 0 ∨ s2 ≠ 0))

/-! ## Offsets of the register window -/

/-- The offset of limb j of X[i] (20_memory.md R51). -/
def limbOffset (i j : Nat) : Nat := 0x1000 + 0x200 * i + 4 * j

/-- The offset of BUF word k (20_memory.md R51). -/
def bufOffset (k : Nat) : Nat := 0x2000 + 4 * k

/-- The offset of CMD, SIGN, a limb of an X register or a BUF word (20_memory.md R51 to R53). -/
def OperandOffset (p : Params) (a : Nat) : Prop :=
  a = 0x0008 ∨ a = 0x0010 ∨ (∃ i j, i < 8 ∧ j < p.w / 32 ∧ j < 128 ∧ a = limbOffset i j) ∨
  (∃ k, k < p.bufBytes / 4 ∧ k < 2048 ∧ a = bufOffset k)

/-- The offset is reserved, an unused limb or an unused BUF word (20_memory.md R51 to R53, R55). -/
def ReservedOffset (p : Params) (a : Nat) : Prop :=
  (0x0018 ≤ a ∧ a < 0x1000) ∨ (∃ i j, i < 8 ∧ p.w / 32 ≤ j ∧ j < 128 ∧ a = limbOffset i j) ∨
  (∃ k, p.bufBytes / 4 ≤ k ∧ k < 2048 ∧ a = bufOffset k)

/-- A 32-bit access at an offset that is a multiple of 4 (20_memory.md R56). -/
def Access.isAligned : Access → Bool
  | .read width off => width == .word && off.toNat % 4 == 0
  | .write width off _ => width == .word && off.toNat % 4 == 0

/-- The turn is not a host access that is refused. -/
def Turn.isAligned : Turn → Bool
  | .host a => a.isAligned
  | .engine => true
  | .reset => true

/-! ## Events: what the next step of a state is -/

/-- The next step is the commit of the command in flight: the engine's turn, which also comes when no turn is listed
(log entry 4), while BUSY. -/
def Commits (s : State) : Prop := s.busy = true ∧ (s.agenda = [] ∨ ∃ rest, s.agenda = .engine :: rest)

/-- The next step is a host write of word `v` to offset `off`. -/
def HostWrites (s : State) (off : BitVec 14) (v : Word) : Prop := ∃ rest, s.agenda = .host (.write .word off v) :: rest

/-- The next step accepts a command: a write to CMD while idle (60_exceptions.md R205). -/
def AcceptsCommand (s : State) : Prop := s.busy = false ∧ ∃ v, HostWrites s 0x0008#14 v

/-- The next step is a reset: power-on, or a write to CTRL with bit 1 = 1 (70_reset_and_hazards.md R230). -/
def Resets (s : State) : Prop :=
  (∃ rest, s.agenda = .reset :: rest) ∨ ∃ v, HostWrites s 0x0000#14 v ∧ v[1] = true

/-- The next step is a host write of 1 to bit k of STATUS. -/
def ClearsStatusBit (s : State) (k : Nat) : Prop := ∃ v, HostWrites s 0x0004#14 v ∧ v.getLsbD k = true

/-- The next step is a host write to CMD, SIGN, a limb of X or a word of BUF. -/
def WritesOperandWord (s : State) : Prop := ∃ off v, HostWrites s off v ∧ OperandOffset s.params off.toNat

/-- `k` steps, stopping at the first that does not answer a next state. -/
def run : Nat → State → Host.Outcome State Fault Refusal
  | 0, s => .next s
  | k + 1, s =>
    match step s with
    | .next t => run k t
    | .fault f => .fault f
    | .refused r => .refused r

/-! ## Primality -/

/-- Answer number `k` of the next draws from lo to hi. -/
def RandomSource.upcoming (r : RandomSource) (lo hi : Nat) : Nat → Nat
  | 0 => (r.draw lo hi).1
  | k + 1 => (r.draw lo hi).2.upcoming lo hi k

/-- GENPRIME's search (41_primality.md R103) rejects `k` candidates of exponent b one after the other, each by the test
with the witness draws that follow its own draw, and takes the random source from `r` to `r'`. -/
def RejectsCandidates (rounds b : Nat) : Nat → RandomSource → RandomSource → Prop
  | 0, r, r' => r' = r
  | k + 1, r, r' =>
    (millerRabin rounds (r.drawCandidate b).1 (r.drawCandidate b).2).1 = false ∧
      RejectsCandidates rounds b k (millerRabin rounds (r.drawCandidate b).1 (r.drawCandidate b).2).2 r'

/-- `a` is a strong liar of n: the round with witness draw a passes (41_primality.md R100, R101). -/
def StrongLiar (n a : Nat) : Prop :=
  ∃ s d, n - 1 = 2 ^ s * d ∧ d % 2 = 1 ∧ (a ^ d % n = 1 ∨ ∃ r < s, a ^ (2 ^ r * d) % n = n - 1)

/-! ## The codec -/

/-- The big-endian value of BUF[off .. off+L−1]: the sum of 44_block_codec.md R162. -/
def State.blockValue (s : State) (off L : Nat) : Nat :=
  ∑ i ∈ Finset.range L, (s.buf.read (off + i)).toNat * 256 ^ (L - 1 - i)

/-- ℓ is the number of big-endian bytes of m: the least with m < 256^ℓ (44_block_codec.md R162). -/
def IsByteCount (m l : Nat) : Prop := m < 256 ^ l ∧ (l ≠ 0 → 256 ^ (l - 1) ≤ m)

/-- The ℓ big-endian bytes of m: byte i is bits 8(ℓ−1−i)+7 to 8(ℓ−1−i) of m (44_block_codec.md R162). -/
def bigEndian (m l : Nat) : List Byte := (List.range l).map fun i => BitVec.ofNat 8 (m / 256 ^ (l - 1 - i))

/-- A byte sequence of one row of the table of 44_block_codec.md R165. -/
def Utf8Sequence (p : List Byte) : Prop := ∃ row ∈ utf8Rows, List.Forall₂ (fun r b => r.has b = true) row p

/-! ## Outcomes (60_exceptions.md R202, R206) -/

/-- The checks of a legal command in the order of its pseudocode, each with the code it reports: the condition is that
the check fails (41_primality.md R102, R103, 42_euclid.md R122, R123, 43_modexp.md R140, 44_block_codec.md R161, R163,
R164). -/
def checks (s : State) : Instr → List (Prop × ErrorCode)
  | .mrtest n => [(s.signBit n = true, .domainError)]
  | .genprime _ b =>
    [(s.signBit b = true, .domainError), (s.params.w ≤ s.mag b, .domainError),
      (∃ r, RejectsCandidates s.params.mrRounds (s.mag b) s.params.primeSearchLimit s.random r, .primeGenerationFailure)]
  | .egcd _ _ _ a b => [(s.signBit a = true, .domainError), (s.signBit b = true, .domainError)]
  | .modinv _ e phi =>
    [(s.signBit e = true, .domainError), (s.signBit phi = true, .domainError), (s.mag phi = 0, .domainError),
      (Nat.gcd (s.mag e) (s.mag phi) ≠ 1, .inverseNotFound)]
  | .modexp _ base exp mod =>
    [(s.signBit base = true, .domainError), (s.signBit exp = true, .domainError), (s.signBit mod = true, .domainError),
      (s.mag mod = 0, .domainError)]
  | .blksize _ n => [(s.signBit n = true, .domainError)]
  | .encode _ n len off =>
    [(s.signBit n = true, .domainError), (s.signBit len = true, .domainError), (s.signBit off = true, .domainError),
      (s.params.w / 8 < s.mag len, .domainError), (s.params.bufBytes < s.mag off + s.mag len, .domainError),
      (s.mag n ≤ s.blockValue (s.mag off) (s.mag len), .blockTooLarge)]
  | .decode _ m off =>
    [(s.signBit m = true, .domainError), (s.signBit off = true, .domainError),
      (∃ l, IsByteCount (s.mag m) l ∧ s.params.bufBytes < s.mag off + l, .domainError),
      (∃ l, IsByteCount (s.mag m) l ∧ utf8WellFormed (bigEndian (s.mag m) l) = false, .invalidUtf8)]

/-- The first failing check decides the code (60_exceptions.md R206); with none failing it is 0. -/
def FirstFailing : List (Prop × ErrorCode) → ErrorCode → Prop
  | [], code => code = .ok
  | (fails, reported) :: rest, code => (fails ∧ code = reported) ∨ (¬fails ∧ FirstFailing rest code)

end Sys2Proof.Machine
end

