-- ==== Sys2Proof/Certificates/Slice0/Obligations.lean ====
section
/-! DEFINITION. The statements for the provers: what the rules of spec/ say the engine does. -/

open Sys2Proof Sys2Proof.Machine

/-! ## Encoding (30_encoding.md) -/

/-- One word per command, written out from the layout of R71 and the examples of files 41 to 44, decodes to it. -/
def Obligations.SpecWordsDecode : Prop :=
  decode 0x00000001#32 = .ok (.mrtest 0) ∧
  decode 0x00020202#32 = .ok (.genprime 2 1) ∧
  decode 0x0011AC03#32 = .ok (.egcd 4 5 6 0 1) ∧
  decode 0x00100204#32 = .ok (.modinv 2 0 1) ∧
  decode 0x01100305#32 = .ok (.modexp 3 0 1 2) ∧
  decode 0x00000106#32 = .ok (.blksize 1 0) ∧
  decode 0x01100307#32 = .ok (.encode 3 0 1 2) ∧
  decode 0x00260408#32 = .ok (.decode 4 3 2)

/-- Every well-formed command is read back from its word, with every operand at every register. -/
def Obligations.DecodeOfEncode : Prop :=
  ∀ i : Instr, i.wellFormed = true → decode (encode i) = .ok i

/-- A word that decodes is the one word of its command, and the command is well formed (R74). -/
def Obligations.EncodeOfDecode : Prop :=
  ∀ (w : Word) (i : Instr), decode w = .ok i → encode i = w ∧ i.wellFormed = true

/-- The decoder rejects exactly the words that R76 calls illegal. -/
def Obligations.RejectedWordsAreTheIllegalWords : Prop :=
  ∀ w : Word, (∃ r, decode w = .error r) ↔ IllegalWord w

/-- R76: an illegal word written to CMD while idle is accepted like any other, changes no X, SIGN, BUF or PRIME state,
commits with ERR = IllegalCommand, and is never executed as another command. -/
def Obligations.IllegalWordCommitsIllegalCommand : Prop :=
  ∀ (s : State) (w : Word) (rest : List Turn), IllegalWord w → s.busy = false →
    s.agenda = .host (.write .word 0x0008#14 w) :: .engine :: rest →
    run 2 s =
      .next { s with cmd := w, busy := false, done := true, err := .illegalCommand, agenda := rest }

/-! ## The step (10_state.md R20, 60_exceptions.md R204, R205, R216) -/

/-- The engine's turn while BUSY runs the command that CMD decodes to: by `exec`, on the state whose turn has passed.
That the engine's turn comes when no turn is listed is the model's choice (log entry 4). -/
def Obligations.StepRunsDecodedCommand : Prop :=
  ∀ (s : State) (i : Instr), s.busy = true → decode s.cmd = .ok i →
    (s.agenda = [] → step s = exec i s) ∧
    (∀ rest, s.agenda = .engine :: rest → step s = exec i { s with agenda := rest })

/-- R205: a write to CMD while BUSY only sets OVR; while idle it stores the word, sets BUSY, clears DONE and ERR. -/
def Obligations.CmdWriteIsDroppedOrAccepted : Prop :=
  ∀ (s : State) (w : Word) (rest : List Turn), s.agenda = .host (.write .word 0x0008#14 w) :: rest →
    (s.busy = true → step s = .next { s with agenda := rest, ovr := true }) ∧
    (s.busy = false →
      step s = .next { s with agenda := rest, cmd := w, busy := true, done := false, err := .ok })

/-- R56, R216: the only steps that do not answer a next state are host accesses of the wrong width or at an offset that is
no multiple of 4, and those are refused; there is no fault (the model's fault type has no value); while BUSY the engine's
turn commits. That the engine's turn comes when no turn is listed is the model's choice (log entry 4). -/
def Obligations.OnlyUnalignedAccessesAreRefused : Prop :=
  ∀ s : State,
    (∀ f, step s ≠ .fault f) ∧
    ((∃ r, step s = .refused r) ↔ ∃ a rest, s.agenda = .host a :: rest ∧ a.isAligned = false) ∧
    (s.busy = true → (s.agenda = [] ∨ ∃ rest, s.agenda = .engine :: rest) →
      ∃ t, step s = .next t ∧ t.busy = false)

/-- A command in flight commits (R238): after its agenda of aligned accesses and one more turn the engine is idle. It rests
on the model's choices that an empty agenda means the engine's turn (log entry 4), which stands for R238's weak fairness,
and that a turn of the idle engine changes nothing (log entry 15). -/
def Obligations.EveryRunEndsIdle : Prop :=
  ∀ s : State, (∀ turn ∈ s.agenda, turn.isAligned = true) →
    ∃ t : State, run (s.agenda.length + 1) s = .next t ∧ t.busy = false ∧ t.agenda = []

/-! ## Every command: commit, frame, errors (60_exceptions.md R201, R203, R204, 10_state.md R22, R23, R30) -/

/-- Every command commits, and leaves unchanged: every X register and sign but its destinations; IE, OVR, CMD, the
parameters; BUF unless it is DECODE; PRIME unless it is MRTEST; the random source unless it is MRTEST or GENPRIME. -/
def Obligations.EveryCommandCommitsWithinItsFrame : Prop :=
  ∀ (i : Instr) (s : State), ∃ t : State, exec i s = .next t ∧ t.busy = false ∧ t.done = true ∧
    Frame i.destinations s t ∧
    ((∀ d m off, i ≠ .decode d m off) → SameBuf s t) ∧
    ((∀ n, i ≠ .mrtest n) → t.prime = s.prime) ∧
    ((∀ n, i ≠ .mrtest n) → (∀ d b, i ≠ .genprime d b) → t.random = s.random)

/-- R201: a command that ends with an error writes nothing to X, SIGN, BUF or PRIME, and the commit records its code. -/
def Obligations.FailedCommandWritesNothing : Prop :=
  ∀ (i : Instr) (s t : State), exec i s = .next t → t.err ≠ .ok →
    t.x = s.x ∧ t.sign = s.sign ∧ t.buf = s.buf ∧ t.prime = s.prime ∧ Committed t t.err

/-- R203: no command ends with a code not listed for it, and an illegal word ends with IllegalCommand. -/
def Obligations.CommandsEndWithListedCodes : Prop :=
  (∀ (i : Instr) (s t : State), exec i s = .next t → t.err ∈ allowedCodes i) ∧
  (∀ (s t : State), Commits s → IllegalWord s.cmd → step s = .next t → t.err = .illegalCommand)

/-- R23: a command that reads a register with SIGN = 1 as an unsigned operand ends with DomainError, also when the
magnitude is 0; every source of every command is read so. -/
def Obligations.NegativeOperandIsDomainError : Prop :=
  ∀ (i : Instr) (s : State) (r : Reg), i.wellFormed = true → r ∈ i.sources → s.signBit r = true →
    exec i s = .next (s.failed .domainError)

/-- R22: no command writes SIGN[j] = 1 together with X[j] = 0, and only EGCD and BLKSIZE set a sign bit. -/
def Obligations.SignsWrittenByCommands : Prop :=
  ∀ (i : Instr) (s t : State) (j : Reg), exec i s = .next t → t.signBit j = true →
    (t.mag j = 0 → s.signBit j = true ∧ s.mag j = 0) ∧
    ((∀ g x y a b, i ≠ .egcd g x y a b) → (∀ d n, i ≠ .blksize d n) → s.signBit j = true)

/-- R30: PRIME changes only at the commit of an MRTEST that ends without error, which writes the test's answer, and at a
reset, which makes it 0; it is 0 after power-on. -/
def Obligations.PrimeIsWrittenByMrtestOnly : Prop :=
  (∀ s t : State, step s = .next t →
    (t.prime ≠ s.prime → Resets s ∨ (Commits s ∧ t.err = .ok ∧ ∃ n, decode s.cmd = .ok (.mrtest n))) ∧
    (Resets s → t.prime = false)) ∧
  (∀ (n : Reg) (s : State), s.signBit n = false → ∃ t, exec (.mrtest n) s = .next t ∧ Committed t .ok ∧
    t.prime = (millerRabin s.params.mrRounds (s.mag n) s.random).1) ∧
  (∀ p x g m r, (State.powerOn p x g m r).prime = false)

/-! ## The invariant -/

/-- Every step keeps the invariant: legal parameters, magnitudes below 2^W, BUF canonical and below BUF_BYTES, DONE and
ERR cleared while BUSY, code 4 never written. -/
def Obligations.StepKeepsInvariant : Prop :=
  ∀ s t : State, s.Inv → step s = .next t → t.Inv

/-- The state after power-on reset meets the invariant, whatever X, SIGN, BUF and the random source hold (R231); in
particular State.reset, whose parameters and register values are the model's choice (log entries 1 to 3, 5). -/
def Obligations.ResetMeetsInvariant : Prop :=
  State.reset.Inv ∧
  ∀ (p : Params) (x : Vector Nat 8) (sign : BitVec 8) (buf : Memory) (r : RandomSource), p.Legal →
    (∀ i : Reg, x[i] < 2 ^ p.w) → buf.wf → buf.below p.bufBytes → (State.powerOn p x sign buf r).Inv

/-! ## Status and control: which events change a field (10_state.md R26 to R33) -/

/-- R28: BUSY is set by the acceptance of a command word and cleared by that command's commit or by a reset; the host
cannot write it. -/
def Obligations.BusySetAndCleared : Prop :=
  ∀ s t : State, step s = .next t →
    (t.busy = true ↔ AcceptsCommand s ∨ (s.busy = true ∧ ¬Commits s ∧ ¬Resets s))

/-- R29: DONE is set by each commit, and stays 1 until a write of 1 to STATUS bit 1, an acceptance or a reset. -/
def Obligations.DoneSetAndCleared : Prop :=
  ∀ s t : State, step s = .next t →
    (t.done = true ↔
      Commits s ∨ (s.done = true ∧ ¬AcceptsCommand s ∧ ¬ClearsStatusBit s 1 ∧ ¬Resets s))

/-- R31: OVR is set by a host write to CMD, SIGN, an X limb or a BUF word while BUSY, and only a write of 1 to STATUS
bit 3 or a reset clears it. That a write to an unused limb or an unused BUF word while BUSY does not set it is read from
R55 and R59 by inference (log entry 9). -/
def Obligations.OvrSetAndCleared : Prop :=
  ∀ s t : State, step s = .next t →
    (t.ovr = true ↔
      (s.busy = true ∧ WritesOperandWord s) ∨ (s.ovr = true ∧ ¬ClearsStatusBit s 3 ∧ ¬Resets s))

/-- R32, R206: ERR is set to 0 by an acceptance and by a reset; a commit sets it to the outcome: IllegalCommand for an
illegal word, else the code of the first failing check of the command, or 0 where none fails; no other step changes it. -/
def Obligations.ErrSetByAcceptanceCommitAndReset : Prop :=
  ∀ s t : State, step s = .next t →
    (AcceptsCommand s ∨ Resets s → t.err = .ok) ∧
    (Commits s → IllegalWord s.cmd → t.err = .illegalCommand) ∧
    (∀ i, Commits s → decode s.cmd = .ok i → FirstFailing (checks s i) t.err) ∧
    (¬AcceptsCommand s → ¬Resets s → ¬Commits s → t.err = s.err)

/-- CMD holds the last accepted word and a read returns it, idle or busy (R33); IE changes only by a write to CTRL or a reset (R26), and no step changes
the parameters, hence PARAM0 and PARAM1 (R34, R35). -/
def Obligations.CmdIeAndParametersChange : Prop :=
  (∀ s t : State, step s = .next t →
    (∀ w, s.busy = false → HostWrites s 0x0008#14 w → t.cmd = w) ∧
    (Resets s → t.cmd = 0#32 ∧ t.ie = false) ∧
    (¬AcceptsCommand s → ¬Resets s → t.cmd = s.cmd) ∧
    (¬Resets s → (∀ v, ¬HostWrites s 0x0000#14 v) → t.ie = s.ie) ∧
    t.params = s.params) ∧
  (∀ (s : State) (rest : List Turn), s.agenda = .host (.read .word 0x0008#14) :: rest →
    step s = .next { s with agenda := rest, reads := s.cmd :: s.reads })

/-- R59, R57: while a command is in flight no step but its commit or a reset changes X, SIGN, BUF or CMD; the operands
the command reads are those of its acceptance. -/
def Obligations.OperandsAreFrozenWhileBusy : Prop :=
  ∀ s t : State, step s = .next t → s.busy = true → ¬Commits s → ¬Resets s →
    t.x = s.x ∧ t.sign = s.sign ∧ t.buf = s.buf ∧ t.cmd = s.cmd ∧ t.busy = true

/-! ## The register window (20_memory.md, 10_state.md R26, R27, R34, R35) -/

/-- R58: an aligned read of any offset, in any state, has no side effect: it returns one word and changes nothing else
(but the model's own count of free values). -/
def Obligations.ReadsHaveNoSideEffect : Prop :=
  ∀ (s : State) (off : BitVec 14) (rest : List Turn), s.agenda = .host (.read .word off) :: rest →
    off.toNat % 4 = 0 →
    ∃ (v : Word) (free : Nat), step s = .next { s with agenda := rest, reads := v :: s.reads, free := free }

/-- R52: limb j of X[i]: a read returns it, a write replaces it and leaves the other limbs, the other registers and SIGN
unchanged; offsets of limbs from W/32 up read 0 and ignore writes. -/
def Obligations.LimbOfXRegister : Prop :=
  ∀ (s : State) (off : BitVec 14) (i : Reg) (j : Nat) (v : Word), s.busy = false → j < 128 →
    off.toNat = limbOffset i j →
    (j < s.params.w / 32 →
      hostStep s (.read .word off) = .next { s with reads := BitVec.ofNat 32 (s.mag i / 2 ^ (32 * j)) :: s.reads } ∧
      ∃ t, hostStep s (.write .word off v) = .next t ∧ t = { s with x := t.x } ∧
        (∀ j', t.mag i / 2 ^ (32 * j') % 2 ^ 32 =
          if j' = j then v.toNat else s.mag i / 2 ^ (32 * j') % 2 ^ 32) ∧
        (∀ i', i' ≠ i → t.mag i' = s.mag i')) ∧
    (s.params.w / 32 ≤ j →
      hostStep s (.read .word off) = .next { s with reads := 0#32 :: s.reads } ∧
      hostStep s (.write .word off v) = .next s)

/-- R53: BUF word k: four bytes in little-endian lane order; a write replaces all four and no other byte; words from
BUF_BYTES/4 up read 0 and ignore writes. -/
def Obligations.WordOfBuf : Prop :=
  ∀ (s : State) (off : BitVec 14) (k : Nat) (v : Word), s.buf.wf → s.busy = false → k < 2048 →
    off.toNat = bufOffset k →
    (k < s.params.bufBytes / 4 →
      (∃ w : Word, hostStep s (.read .word off) = .next { s with reads := w :: s.reads } ∧
        w.toNat = (s.buf.read (4 * k)).toNat + 2 ^ 8 * (s.buf.read (4 * k + 1)).toNat +
          2 ^ 16 * (s.buf.read (4 * k + 2)).toNat + 2 ^ 24 * (s.buf.read (4 * k + 3)).toNat) ∧
      ∃ t, hostStep s (.write .word off v) = .next t ∧ t = { s with buf := t.buf } ∧
        (∀ b < 4, (t.buf.read (4 * k + b)).toNat = v.toNat / 2 ^ (8 * b) % 2 ^ 8) ∧
        (∀ a, a < 4 * k ∨ 4 * k + 4 ≤ a → t.buf.read a = s.buf.read a)) ∧
    (s.params.bufBytes / 4 ≤ k →
      hostStep s (.read .word off) = .next { s with reads := 0#32 :: s.reads } ∧
      hostStep s (.write .word off v) = .next s)

/-- R55: every offset that R51 does not name, every unused limb and every unused BUF word reads as 0 and ignores writes,
with no other effect, idle or busy. That unused limbs and unused BUF words behave so while BUSY, where R59 speaks of
'any X limb or any BUF word', is read from R55 by inference (log entry 9). -/
def Obligations.ReservedOffsetsReadZero : Prop :=
  ∀ (s : State) (off : BitVec 14) (v : Word), off.toNat % 4 = 0 → ReservedOffset s.params off.toNat →
    hostStep s (.read .word off) = .next { s with reads := 0#32 :: s.reads } ∧
    hostStep s (.write .word off v) = .next s

/-- R27: STATUS reads as BUSY + 2 DONE + 4 PRIME + 8 OVR + 256 ERR, also while busy; a write clears DONE where bit 1 is
1 and OVR where bit 3 is 1 and changes nothing else; it is 0 after power-on. -/
def Obligations.StatusRegister : Prop :=
  (∀ (s : State) (v : Word),
    (∃ w : Word, hostStep s (.read .word 0x0004#14) = .next { s with reads := w :: s.reads } ∧
      w.toNat = s.busy.toNat + 2 * s.done.toNat + 4 * s.prime.toNat + 8 * s.ovr.toNat +
        256 * s.err.number.toNat) ∧
    hostStep s (.write .word 0x0004#14 v) =
      .next { s with
        done := if v[1] then false else s.done
        ovr := if v[3] then false else s.ovr }) ∧
  (∀ p x g m r, (State.powerOn p x g m r).statusWord = 0#32)

/-- R26: CTRL reads as IE in bit 0 and 0 elsewhere; a write with bit 1 = 0 writes bit 0 to IE; a write with bit 1 = 1
resets CTRL, STATUS and CMD whatever bit 0 holds; both also while busy; it is 0 after power-on. -/
def Obligations.CtrlRegister : Prop :=
  (∀ (s : State) (v : Word),
    (∃ w : Word, hostStep s (.read .word 0x0000#14) = .next { s with reads := w :: s.reads } ∧
      w.toNat = s.ie.toNat) ∧
    (v[1] = false → hostStep s (.write .word 0x0000#14 v) = .next { s with ie := v[0] }) ∧
    (v[1] = true → ∃ t, hostStep s (.write .word 0x0000#14 v) = .next t ∧
      t.ie = false ∧ t.statusWord = 0#32 ∧ t.cmd = 0#32)) ∧
  (∀ p x g m r, (State.powerOn p x g m r).ctrlWord = 0#32)

/-- R22: SIGN is bits 7:0 of its word: the host reads them and may write any pattern while idle; val(i) is the magnitude
with the sign. That bits 31:8 read 0 and are ignored is read from the spec by inference (log entry 10). -/
def Obligations.SignRegister : Prop :=
  ∀ (s : State) (v : Word), s.busy = false →
    (∃ w : Word, hostStep s (.read .word 0x0010#14) = .next { s with reads := w :: s.reads } ∧
      w.toNat = s.sign.toNat) ∧
    (∃ t, hostStep s (.write .word 0x0010#14 v) = .next t ∧ t = { s with sign := t.sign } ∧
      (∀ i : Reg, t.signBit i = v.getLsbD i) ∧
      ∀ i : Reg, t.val i = (-1) ^ (v.getLsbD i).toNat * (s.mag i : Int))

/-- R34, R35: PARAM0 and PARAM1 hold the parameters, for every legal choice of them; writes are ignored. -/
def Obligations.ParameterRegisters : Prop :=
  ∀ (s : State) (v : Word), s.params.Legal →
    (∃ w : Word, hostStep s (.read .word 0x000C#14) = .next { s with reads := w :: s.reads } ∧
      w.toNat % 2 ^ 8 = s.params.w / 32 ∧ w.toNat / 2 ^ 8 % 2 ^ 12 = s.params.bufBytes / 4 ∧
      w.toNat / 2 ^ 20 % 2 ^ 8 = s.params.mrRounds ∧ w.toNat / 2 ^ 28 = 1) ∧
    (∃ w : Word, hostStep s (.read .word 0x0014#14) = .next { s with reads := w :: s.reads } ∧
      w.toNat = s.params.primeSearchLimit) ∧
    hostStep s (.write .word 0x000C#14 v) = .next s ∧
    hostStep s (.write .word 0x0014#14 v) = .next s

/-! ## Resets and the interrupt (70_reset_and_hazards.md R231, R232, 60_exceptions.md R207, R208) -/

/-- R232: soft reset gives CTRL, STATUS and CMD their reset values; idle, X, SIGN and BUF keep theirs; with a command in
flight it is abandoned without commit, DONE and the interrupt stay 0, and nothing is said of X, SIGN and BUF. -/
def Obligations.SoftReset : Prop :=
  ∀ (s : State) (v : Word), v[1] = true →
    (s.busy = false → hostStep s (.write .word 0x0000#14 v) =
      .next { s with ie := false, done := false, prime := false, ovr := false, err := .ok, cmd := 0#32 }) ∧
    (s.busy = true → ∃ t, hostStep s (.write .word 0x0000#14 v) = .next t ∧
      t = { s with
        ie := false, busy := false, done := false, prime := false, ovr := false, err := .ok, cmd := 0#32
        x := t.x, sign := t.sign, buf := t.buf, free := t.free } ∧
      t.irq = false)

/-- R231: power-on reset clears CTRL, STATUS and CMD in every state; the random source is not reset and the parameters
are constants. -/
def Obligations.PowerOnReset : Prop :=
  ∀ (s : State) (rest : List Turn), s.agenda = .reset :: rest →
    ∃ t, step s = .next t ∧ t.ctrlWord = 0#32 ∧ t.statusWord = 0#32 ∧ t.cmd = 0#32 ∧
      t.random = s.random ∧ t.params = s.params ∧ t.agenda = rest ∧ t.reads = s.reads

/-- R207, R208: IRQ is IE and DONE: a commit raises it where IE = 1; setting IE while DONE = 1 raises it at once, clearing IE lowers it;
a write of 1 to STATUS bit 1, which keeps ERR and PRIME, an acceptance and a reset lower it. -/
def Obligations.InterruptRaisedAndAcknowledged : Prop :=
  ∀ s t : State, step s = .next t →
    (Commits s → (t.irq = true ↔ s.ie = true)) ∧
    ((∃ v, HostWrites s 0x0000#14 v ∧ v[0] = true ∧ v[1] = false) → (t.irq = true ↔ s.done = true)) ∧
    ((∃ v, HostWrites s 0x0000#14 v ∧ v[0] = false ∧ v[1] = false) → t.irq = false) ∧
    (ClearsStatusBit s 1 → t.irq = false ∧ t.err = s.err ∧ t.prime = s.prime) ∧
    (AcceptsCommand s ∨ Resets s → t.irq = false)

/-! ## The random source (10_state.md R37) -/

/-- R37: a draw lies in its range, and can be every value of the range; a witness draw is in [2, n − 2] for odd n ≥ 5, a
candidate draw in [2^b, 2^(b+1) − 1]. -/
def Obligations.DrawsAreFreeInTheirRange : Prop :=
  (∀ (r : RandomSource) (n : Nat), 5 ≤ n → 2 ≤ (r.drawWitness n).1 ∧ (r.drawWitness n).1 ≤ n - 2) ∧
  (∀ (r : RandomSource) (b : Nat), 2 ^ b ≤ (r.drawCandidate b).1 ∧ (r.drawCandidate b).1 ≤ 2 ^ (b + 1) - 1) ∧
  (∀ n a : Nat, 2 ≤ a → a ≤ n - 2 → ∃ r : RandomSource, (r.drawWitness n).1 = a) ∧
  (∀ b c : Nat, 2 ^ b ≤ c → c ≤ 2 ^ (b + 1) - 1 → ∃ r : RandomSource, (r.drawCandidate b).1 = c)

/-! ## MRTEST (41_primality.md R100 to R102) -/

/-- R101: MRTEST accepts every prime, for every sequence of draws. -/
def Obligations.MrtestAcceptsEveryPrime : Prop :=
  ∀ (n : Reg) (s : State), s.signBit n = false → (s.mag n).Prime →
    ∃ t, exec (.mrtest n) s = .next t ∧ Committed t .ok ∧ t.prime = true ∧ Frame [] s t ∧ SameBuf s t

/-- R102, corner cases: n < 2 and every even n ≥ 4 give PRIME = 0, n = 2 and n = 3 give PRIME = 1, with no draw and
nothing else written. -/
def Obligations.MrtestTrivialCases : Prop :=
  ∀ (n : Reg) (s : State), s.signBit n = false →
    (s.mag n < 2 ∨ (4 ≤ s.mag n ∧ s.mag n % 2 = 0) →
      exec (.mrtest n) s = .next { s with prime := false, busy := false, done := true, err := .ok }) ∧
    (s.mag n = 2 ∨ s.mag n = 3 →
      exec (.mrtest n) s = .next { s with prime := true, busy := false, done := true, err := .ok })

/-- R100, R101: for odd n ≥ 5 MRTEST accepts exactly when every one of its MR_ROUNDS draws is a strong liar of n, and it
takes between 1 and MR_ROUNDS draws. -/
def Obligations.MrtestAcceptsWhenAllDrawsAreStrongLiars : Prop :=
  ∀ (n : Reg) (s : State), s.signBit n = false → 5 ≤ s.mag n → s.mag n % 2 = 1 → 1 ≤ s.params.mrRounds →
    ∃ t, exec (.mrtest n) s = .next t ∧ Committed t .ok ∧ Frame [] s t ∧ SameBuf s t ∧
      (t.prime = true ↔
        ∀ k < s.params.mrRounds, StrongLiar (s.mag n) (s.random.upcoming 2 (s.mag n - 2) k)) ∧
      s.random.drawn + 1 ≤ t.random.drawn ∧ t.random.drawn ≤ s.random.drawn + s.params.mrRounds

/-- R101: for the composite 561 MRTEST may accept and may reject, by the draws, for every number of rounds. -/
def Obligations.MrtestMayAcceptOrReject561 : Prop :=
  ∀ (n : Reg) (s : State), s.signBit n = false → s.mag n = 561 → 1 ≤ s.params.mrRounds →
    (∃ r t, exec (.mrtest n) { s with random := r } = .next t ∧ Committed t .ok ∧ t.prime = true) ∧
    (∃ r t, exec (.mrtest n) { s with random := r } = .next t ∧ Committed t .ok ∧ t.prime = false)

/-! ## GENPRIME (41_primality.md R103) -/

/-- R103: for b < W GENPRIME takes candidates one after the other, each from the source that the test of the rejected one
before it leaves. It ends at the first, after k < PRIME_SEARCH_LIMIT rejected ones, that the test accepts under the
witness draws then taken, and writes it, a value in [2^b, 2^(b+1)); or, when PRIME_SEARCH_LIMIT are rejected, with
PrimeGenerationFailure and X[D0] unchanged. That the draws of a failed search stay taken is the model's choice
(log entry 12). -/
def Obligations.GenprimeOutcome : Prop :=
  ∀ (d b : Reg) (s : State), s.signBit b = false → s.mag b < s.params.w →
    ∃ (t : State) (k : Nat) (r : RandomSource), exec (.genprime d b) s = .next t ∧
      Frame [d] s t ∧ SameBuf s t ∧ t.prime = s.prime ∧
      RejectsCandidates s.params.mrRounds (s.mag b) k s.random r ∧
      ((k < s.params.primeSearchLimit ∧ Committed t .ok ∧
          t.mag d = (r.drawCandidate (s.mag b)).1 ∧
          millerRabin s.params.mrRounds (t.mag d) (r.drawCandidate (s.mag b)).2 = (true, t.random) ∧
          2 ^ s.mag b ≤ t.mag d ∧ t.mag d < 2 ^ (s.mag b + 1) ∧ t.signBit d = false) ∨
        (k = s.params.primeSearchLimit ∧ Committed t .primeGenerationFailure ∧
          t.x = s.x ∧ t.sign = s.sign ∧ t.random = r))

/-- R103: GENPRIME succeeds with its first candidate where that is prime. -/
def Obligations.GenprimeTakesAPrimeCandidate : Prop :=
  ∀ (d b : Reg) (s : State), s.signBit b = false → s.mag b < s.params.w → 1 ≤ s.params.primeSearchLimit →
    (s.random.drawCandidate (s.mag b)).1.Prime →
    ∃ t, exec (.genprime d b) s = .next t ∧ Committed t .ok ∧
      t.mag d = (s.random.drawCandidate (s.mag b)).1 ∧ t.signBit d = false ∧
      Frame [d] s t ∧ SameBuf s t ∧ t.prime = s.prime

/-- R103, corner cases: b ≥ W is a DomainError; b = 0 always fails with PrimeGenerationFailure after PRIME_SEARCH_LIMIT
draws, which stay taken (log entry 12); b = 1 always succeeds with 2 or 3. -/
def Obligations.GenprimeCornerCases : Prop :=
  ∀ (d b : Reg) (s : State), s.signBit b = false → s.params.Legal →
    (s.params.w ≤ s.mag b → exec (.genprime d b) s = .next (s.failed .domainError)) ∧
    (s.mag b = 0 → ∃ r, exec (.genprime d b) s = .next ({ s with random := r }.failed .primeGenerationFailure) ∧
      r.drawn = s.random.drawn + s.params.primeSearchLimit) ∧
    (s.mag b = 1 → ∃ t, exec (.genprime d b) s = .next t ∧ Committed t .ok ∧ (t.mag d = 2 ∨ t.mag d = 3) ∧
      t.signBit d = false ∧ Frame [d] s t ∧ SameBuf s t)

/-- R103, R202: where every one of the PRIME_SEARCH_LIMIT candidates is even (b ≥ 2), GENPRIME fails with
PrimeGenerationFailure and writes nothing. -/
def Obligations.GenprimeFailsOnEvenCandidates : Prop :=
  ∀ (d b : Reg) (s : State), s.signBit b = false → 2 ≤ s.mag b → s.mag b < s.params.w →
    (∀ k < s.params.primeSearchLimit,
      s.random.upcoming (2 ^ s.mag b) (2 ^ (s.mag b + 1) - 1) k % 2 = 0) →
    ∃ r, exec (.genprime d b) s = .next ({ s with random := r }.failed .primeGenerationFailure)

/-! ## EGCD and MODINV (42_euclid.md R120 to R123) -/

/-- R120, R122: EGCD writes exactly the triple that the recursion of R120 gives: that of every function `f` which
satisfies the recursion. -/
def Obligations.EgcdWritesTheRecursionsTriple : Prop :=
  ∀ f : Nat → Nat → Nat × Int × Int,
    (∀ b, f 0 b = (b, 0, 1)) →
    (∀ a b, a ≠ 0 →
      f a b = ((f (b % a) a).1, (f (b % a) a).2.2 - ((b / a : Nat) : Int) * (f (b % a) a).2.1, (f (b % a) a).2.1)) →
    ∀ (g x y a b : Reg) (s : State), g ≠ x → g ≠ y → x ≠ y → s.signBit a = false → s.signBit b = false →
      ∃ t, exec (.egcd g x y a b) s = .next t ∧ Committed t .ok ∧
        t.val g = (f (s.mag a) (s.mag b)).1 ∧ t.signBit g = false ∧
        t.val x = (f (s.mag a) (s.mag b)).2.1 ∧ t.val y = (f (s.mag a) (s.mag b)).2.2 ∧
        Frame [g, x, y] s t ∧ SameBuf s t ∧ t.prime = s.prime ∧ t.random = s.random

/-- R120, R121: EGCD's results are gcd(a, b) and coefficients with a·x + b·y = g, |x| ≤ max(1, b) and |y| ≤ max(1, a). -/
def Obligations.EgcdGivesBezoutCoefficients : Prop :=
  ∀ (g x y a b : Reg) (s : State), g ≠ x → g ≠ y → x ≠ y → s.signBit a = false → s.signBit b = false →
    ∃ t, exec (.egcd g x y a b) s = .next t ∧ Committed t .ok ∧
      t.val g = Nat.gcd (s.mag a) (s.mag b) ∧
      (s.mag a : Int) * t.val x + (s.mag b : Int) * t.val y = t.val g ∧
      t.mag x ≤ max 1 (s.mag b) ∧ t.mag y ≤ max 1 (s.mag a)

/-- R123: MODINV writes the d in [0, phi) with e·d ≡ 1 (mod phi) where gcd(e, phi) = 1. -/
def Obligations.ModinvGivesTheInverse : Prop :=
  ∀ (d e phi : Reg) (s : State), s.signBit e = false → s.signBit phi = false → s.mag phi ≠ 0 →
    Nat.gcd (s.mag e) (s.mag phi) = 1 →
    ∃ t, exec (.modinv d e phi) s = .next t ∧ Committed t .ok ∧ t.mag d < s.mag phi ∧
      s.mag e * t.mag d % s.mag phi = 1 % s.mag phi ∧ t.signBit d = false ∧
      Frame [d] s t ∧ SameBuf s t ∧ t.prime = s.prime ∧ t.random = s.random

/-- R123: MODINV ends with DomainError for phi = 0, and for phi ≠ 0 with InverseNotFound where gcd(e, phi) ≠ 1, nothing
written. -/
def Obligations.ModinvErrors : Prop :=
  ∀ (d e phi : Reg) (s : State), s.signBit e = false → s.signBit phi = false →
    (s.mag phi = 0 → exec (.modinv d e phi) s = .next (s.failed .domainError)) ∧
    (s.mag phi ≠ 0 → Nat.gcd (s.mag e) (s.mag phi) ≠ 1 →
      exec (.modinv d e phi) s = .next (s.failed .inverseNotFound))

/-! ## MODEXP (43_modexp.md R140 to R145) -/

/-- R140, R142: MODEXP writes B^E mod M, with B^0 = 1, for every M ≥ 1. -/
def Obligations.ModexpIsThePowerModuloM : Prop :=
  ∀ (d base exp mod : Reg) (s : State), s.signBit base = false → s.signBit exp = false → s.signBit mod = false →
    1 ≤ s.mag mod →
    ∃ t, exec (.modexp d base exp mod) s = .next t ∧ Committed t .ok ∧
      t.mag d = s.mag base ^ s.mag exp % s.mag mod ∧ t.signBit d = false ∧
      Frame [d] s t ∧ SameBuf s t ∧ t.prime = s.prime ∧ t.random = s.random

/-- R140: MODEXP with M = 0 ends with DomainError, nothing written. -/
def Obligations.ModexpZeroModulusIsDomainError : Prop :=
  ∀ (d base exp mod : Reg) (s : State), s.mag mod = 0 →
    exec (.modexp d base exp mod) s = .next (s.failed .domainError)

/-- R145: the result of a MODEXP depends only on its three operands: two states that agree on them end with the same
code and, where it is 0, the same value. -/
def Obligations.ModexpDependsOnItsOperandsOnly : Prop :=
  ∀ (d base exp mod : Reg) (s s' : State),
    (∀ r ∈ [base, exp, mod], s.mag r = s'.mag r ∧ s.signBit r = s'.signBit r) →
    ∃ t t', exec (.modexp d base exp mod) s = .next t ∧ exec (.modexp d base exp mod) s' = .next t' ∧
      t.err = t'.err ∧ (t.err = .ok → t.mag d = t'.mag d ∧ t.signBit d = t'.signBit d)

/-- R166: for n = p·q with primes p ≠ q, e·d ≡ 1 (mod (p−1)(q−1)) and m < n, MODEXP with e and then MODEXP with d on
its result gives m back. -/
def Obligations.RsaRoundTrip : Prop :=
  ∀ (c1 c2 m e d n : Reg) (s : State) (p q : Nat), c1 ≠ d → c1 ≠ n →
    (∀ r ∈ [m, e, d, n], s.signBit r = false) →
    p.Prime → q.Prime → p ≠ q → s.mag n = p * q → s.mag m < s.mag n →
    s.mag e * s.mag d ≡ 1 [MOD (p - 1) * (q - 1)] →
    ∃ t u, exec (.modexp c1 m e n) s = .next t ∧ exec (.modexp c2 c1 d n) t = .next u ∧
      Committed t .ok ∧ Committed u .ok ∧ u.mag c2 = s.mag m ∧ u.signBit c2 = false

/-! ## BLKSIZE, ENCODE, DECODE (44_block_codec.md R160 to R166) -/

/-- R160, R161: BLKSIZE writes −1 for n < 128 and k − 1 for 2^(8k−1) ≤ n < 2^(8k+7), k ≥ 1. -/
def Obligations.BlksizeGivesTheBlockSize : Prop :=
  ∀ (d n : Reg) (s : State), s.signBit n = false →
    ∃ t, exec (.blksize d n) s = .next t ∧ Committed t .ok ∧
      (s.mag n < 128 → t.mag d = 1 ∧ t.signBit d = true ∧ t.val d = -1) ∧
      (∀ k, 1 ≤ k → 2 ^ (8 * k - 1) ≤ s.mag n → s.mag n < 2 ^ (8 * k + 7) →
        t.mag d = k - 1 ∧ t.signBit d = false) ∧
      Frame [d] s t ∧ SameBuf s t ∧ t.prime = s.prime ∧ t.random = s.random

/-- R163: ENCODE writes the big-endian value of BUF[off .. off+L−1] where L ≤ W/8, the range lies inside BUF and the
value is below n. -/
def Obligations.EncodeGivesTheBlockValue : Prop :=
  ∀ (d n len off : Reg) (s : State), s.signBit n = false → s.signBit len = false → s.signBit off = false →
    s.mag len ≤ s.params.w / 8 → s.mag off + s.mag len ≤ s.params.bufBytes →
    s.blockValue (s.mag off) (s.mag len) < s.mag n →
    ∃ t, exec (.encode d n len off) s = .next t ∧ Committed t .ok ∧
      t.mag d = s.blockValue (s.mag off) (s.mag len) ∧ t.signBit d = false ∧
      Frame [d] s t ∧ SameBuf s t ∧ t.prime = s.prime ∧ t.random = s.random

/-- R163, R206: ENCODE ends with DomainError where L > W/8 or the range passes BUF_BYTES, whatever the bytes; else with
BlockTooLarge where the value is at least n; nothing written. -/
def Obligations.EncodeErrors : Prop :=
  ∀ (d n len off : Reg) (s : State), s.signBit n = false → s.signBit len = false → s.signBit off = false →
    (s.params.w / 8 < s.mag len ∨ s.params.bufBytes < s.mag off + s.mag len →
      exec (.encode d n len off) s = .next (s.failed .domainError)) ∧
    (s.mag len ≤ s.params.w / 8 → s.mag off + s.mag len ≤ s.params.bufBytes →
      s.mag n ≤ s.blockValue (s.mag off) (s.mag len) →
      exec (.encode d n len off) s = .next (s.failed .blockTooLarge))

/-- R166, bound: where BLKSIZE gives a size of at least L for n, an ENCODE of L bytes never ends with BlockTooLarge. -/
def Obligations.EncodeWithinTheBlockSizeSucceeds : Prop :=
  ∀ (d' d n len off : Reg) (s u : State), s.signBit n = false → s.signBit len = false → s.signBit off = false →
    exec (.blksize d' n) s = .next u → (s.mag len : Int) ≤ u.val d' →
    s.mag len ≤ s.params.w / 8 → s.mag off + s.mag len ≤ s.params.bufBytes →
    ∃ t, exec (.encode d n len off) s = .next t ∧ Committed t .ok

/-- R164: DECODE writes the ℓ big-endian bytes of m to BUF[off .. off+ℓ−1] and ℓ to X[D0], where the range lies inside
BUF and the bytes are well-formed UTF-8; every other byte of BUF keeps its value. -/
def Obligations.DecodeWritesTheBytes : Prop :=
  ∀ (d m off : Reg) (s : State) (l : Nat), s.buf.wf → s.signBit m = false → s.signBit off = false →
    IsByteCount (s.mag m) l → s.mag off + l ≤ s.params.bufBytes →
    utf8WellFormed (bigEndian (s.mag m) l) = true →
    ∃ t, exec (.decode d m off) s = .next t ∧ Committed t .ok ∧ t.mag d = l ∧ t.signBit d = false ∧
      (∀ i < l, (t.buf.read (s.mag off + i)).toNat = s.mag m / 256 ^ (l - 1 - i) % 256) ∧
      (∀ a, a < s.mag off ∨ s.mag off + l ≤ a → t.buf.read a = s.buf.read a) ∧
      Frame [d] s t ∧ t.prime = s.prime ∧ t.random = s.random

/-- R164, R206: DECODE ends with DomainError where the range passes BUF_BYTES, whatever the bytes; else with InvalidUtf8
where they are not well-formed UTF-8; nothing written. -/
def Obligations.DecodeErrors : Prop :=
  ∀ (d m off : Reg) (s : State) (l : Nat), s.signBit m = false → s.signBit off = false →
    IsByteCount (s.mag m) l →
    (s.params.bufBytes < s.mag off + l → exec (.decode d m off) s = .next (s.failed .domainError)) ∧
    (s.mag off + l ≤ s.params.bufBytes → utf8WellFormed (bigEndian (s.mag m) l) = false →
      exec (.decode d m off) s = .next (s.failed .invalidUtf8))

/-- R166, round trip: where ENCODE of the bytes `bs` of BUF succeeds, DECODE of its result writes `bs` without its
leading 0x00 bytes, and their number, where `bs` is well-formed UTF-8 and the range lies inside BUF. -/
def Obligations.CodecRoundTrip : Prop :=
  ∀ (c d n len off off' : Reg) (s t : State), s.buf.wf → off' ≠ c → s.signBit off' = false →
    exec (.encode c n len off) s = .next t → t.err = .ok →
    utf8WellFormed (s.buf.readBytes (s.mag off) (s.mag len)) = true →
    s.mag off' + s.mag len ≤ s.params.bufBytes →
    ∃ u, exec (.decode d c off') t = .next u ∧ Committed u .ok ∧
      u.mag d = ((s.buf.readBytes (s.mag off) (s.mag len)).dropWhile (· == 0x00#8)).length ∧
      u.buf.readBytes (s.mag off') (u.mag d) =
        (s.buf.readBytes (s.mag off) (s.mag len)).dropWhile (· == 0x00#8)

/-- R165: Utf8WellFormed holds of exactly the concatenations of zero or more byte sequences of the table. -/
def Obligations.Utf8IsConcatenationOfTableRows : Prop :=
  ∀ s : List Byte, utf8WellFormed s = true ↔ ∃ parts : List (List Byte), s = parts.flatten ∧ ∀ p ∈ parts, Utf8Sequence p

/-- R165, D26: strict UTF-8: the well-formed strings are exactly the encodings of texts (Unicode scalar values), so
overlong forms, surrogates and values above U+10FFFF are rejected. The encoding of one character is Lean's own. -/
def Obligations.Utf8WellFormedIsEncodedText : Prop :=
  ∀ s : List Byte, utf8WellFormed s = true ↔
    ∃ text : List Char, s = text.flatMap fun c => (String.utf8EncodeChar c).map UInt8.toBitVec
end

