-- ==== Sys2Proof/Laws/Decode.lean ====
section
/-! SUPPORT. The command word and its fields: packing and unpacking, and what the decoder reads from a packed word. -/

namespace Sys2Proof

/-- The number that a packed word is (30_encoding.md R74: `OPC | D0<<8 | D1<<11 | …`). -/
theorem packWord_toNat (s2 s1 s0 d2 d1 d0 : Reg) (opc : Byte) :
    (packWord s2 s1 s0 d2 d1 d0 opc).toNat =
      opc.toNat + 2 ^ 8 * d0 + 2 ^ 11 * d1 + 2 ^ 14 * d2 + 2 ^ 17 * s0 + 2 ^ 20 * s1 + 2 ^ 23 * s2 := by
  unfold packWord
  have := opc.isLt
  simp only [BitVec.toNat_append, BitVec.toNat_ofFin]
  iterate 7 rw [← Nat.shiftLeft_add_eq_or_of_lt (by omega)]
  simp only [Nat.shiftLeft_eq, BitVec.toNat_ofNat, Nat.zero_mod, Nat.zero_mul, Nat.zero_add]
  ring

theorem extractLsb'_toNat_eq (w : Word) (lo n : Nat) : (w.extractLsb' lo n).toNat = w.toNat / 2 ^ lo % 2 ^ n := by
  rw [BitVec.extractLsb'_toNat, Nat.shiftRight_eq_div_pow]

theorem fieldOPC_toNat (w : Word) : (fieldOPC w).toNat = w.toNat % 2 ^ 8 := by
  unfold fieldOPC; rw [extractLsb'_toNat_eq]; simp
theorem fieldD0_val (w : Word) : (fieldD0 w).val = w.toNat / 2 ^ 8 % 8 := extractLsb'_toNat_eq w 8 3
theorem fieldD1_val (w : Word) : (fieldD1 w).val = w.toNat / 2 ^ 11 % 8 := extractLsb'_toNat_eq w 11 3
theorem fieldD2_val (w : Word) : (fieldD2 w).val = w.toNat / 2 ^ 14 % 8 := extractLsb'_toNat_eq w 14 3
theorem fieldS0_val (w : Word) : (fieldS0 w).val = w.toNat / 2 ^ 17 % 8 := extractLsb'_toNat_eq w 17 3
theorem fieldS1_val (w : Word) : (fieldS1 w).val = w.toNat / 2 ^ 20 % 8 := extractLsb'_toNat_eq w 20 3
theorem fieldS2_val (w : Word) : (fieldS2 w).val = w.toNat / 2 ^ 23 % 8 := extractLsb'_toNat_eq w 23 3
theorem fieldRES_toNat (w : Word) : (fieldRES w).toNat = w.toNat / 2 ^ 26 := by
  have := w.isLt
  unfold fieldRES; rw [extractLsb'_toNat_eq]; omega

/-! The fields of a packed word are the packed fields. -/

@[simp] theorem fieldOPC_packWord (s2 s1 s0 d2 d1 d0 : Reg) (opc : Byte) :
    fieldOPC (packWord s2 s1 s0 d2 d1 d0 opc) = opc := by
  have := opc.isLt
  apply BitVec.eq_of_toNat_eq
  rw [fieldOPC_toNat, packWord_toNat]
  omega

@[simp] theorem fieldD0_packWord (s2 s1 s0 d2 d1 d0 : Reg) (opc : Byte) :
    fieldD0 (packWord s2 s1 s0 d2 d1 d0 opc) = d0 := by
  have := opc.isLt
  apply Fin.ext
  rw [fieldD0_val, packWord_toNat]
  omega

@[simp] theorem fieldD1_packWord (s2 s1 s0 d2 d1 d0 : Reg) (opc : Byte) :
    fieldD1 (packWord s2 s1 s0 d2 d1 d0 opc) = d1 := by
  have := opc.isLt
  apply Fin.ext
  rw [fieldD1_val, packWord_toNat]
  omega

@[simp] theorem fieldD2_packWord (s2 s1 s0 d2 d1 d0 : Reg) (opc : Byte) :
    fieldD2 (packWord s2 s1 s0 d2 d1 d0 opc) = d2 := by
  have := opc.isLt
  apply Fin.ext
  rw [fieldD2_val, packWord_toNat]
  omega

@[simp] theorem fieldS0_packWord (s2 s1 s0 d2 d1 d0 : Reg) (opc : Byte) :
    fieldS0 (packWord s2 s1 s0 d2 d1 d0 opc) = s0 := by
  have := opc.isLt
  apply Fin.ext
  rw [fieldS0_val, packWord_toNat]
  omega

@[simp] theorem fieldS1_packWord (s2 s1 s0 d2 d1 d0 : Reg) (opc : Byte) :
    fieldS1 (packWord s2 s1 s0 d2 d1 d0 opc) = s1 := by
  have := opc.isLt
  apply Fin.ext
  rw [fieldS1_val, packWord_toNat]
  omega

@[simp] theorem fieldS2_packWord (s2 s1 s0 d2 d1 d0 : Reg) (opc : Byte) :
    fieldS2 (packWord s2 s1 s0 d2 d1 d0 opc) = s2 := by
  have := opc.isLt
  apply Fin.ext
  rw [fieldS2_val, packWord_toNat]
  omega

@[simp] theorem fieldRES_packWord (s2 s1 s0 d2 d1 d0 : Reg) (opc : Byte) :
    fieldRES (packWord s2 s1 s0 d2 d1 d0 opc) = 0 := by
  have := opc.isLt
  apply BitVec.eq_of_toNat_eq
  rw [fieldRES_toNat, packWord_toNat]
  simp only [BitVec.ofNat_eq_ofNat, BitVec.toNat_ofNat]
  omega

/-- A word whose RES is 0 is the packing of its fields. -/
theorem packWord_fields {w : Word} (h : fieldRES w = 0) :
    packWord (fieldS2 w) (fieldS1 w) (fieldS0 w) (fieldD2 w) (fieldD1 w) (fieldD0 w) (fieldOPC w) = w := by
  have h7 := fieldRES_toNat w
  rw [h] at h7
  simp only [BitVec.ofNat_eq_ofNat, BitVec.toNat_ofNat] at h7
  apply BitVec.eq_of_toNat_eq
  rw [packWord_toNat, fieldOPC_toNat, fieldD0_val, fieldD1_val, fieldD2_val, fieldS0_val, fieldS1_val, fieldS2_val]
  omega

theorem packWord_inj {s2 s1 s0 d2 d1 d0 s2' s1' s0' d2' d1' d0' : Reg} {opc opc' : Byte} :
    packWord s2 s1 s0 d2 d1 d0 opc = packWord s2' s1' s0' d2' d1' d0' opc' ↔
      s2 = s2' ∧ s1 = s1' ∧ s0 = s0' ∧ d2 = d2' ∧ d1 = d1' ∧ d0 = d0' ∧ opc = opc' := by
  constructor
  · intro h
    exact ⟨by simpa using congrArg fieldS2 h, by simpa using congrArg fieldS1 h, by simpa using congrArg fieldS0 h,
      by simpa using congrArg fieldD2 h, by simpa using congrArg fieldD1 h, by simpa using congrArg fieldD0 h,
      by simpa using congrArg fieldOPC h⟩
  · rintro ⟨rfl, rfl, rfl, rfl, rfl, rfl, rfl⟩; rfl

/-- A word of masks, one per field. -/
def packMask (m2 m1 m0 n2 n1 n0 : Reg) : Word :=
  0x3F#6 ++ BitVec.ofFin (w := 3) m2 ++ BitVec.ofFin (w := 3) m1 ++ BitVec.ofFin (w := 3) m0 ++
    BitVec.ofFin (w := 3) n2 ++ BitVec.ofFin (w := 3) n1 ++ BitVec.ofFin (w := 3) n0 ++ 0xFF#8

theorem ofFin_and (a b : Reg) :
    BitVec.ofFin (w := 3) (a &&& b) = BitVec.ofFin (w := 3) a &&& BitVec.ofFin (w := 3) b := by
  apply BitVec.eq_of_toNat_eq
  revert a b; decide

theorem append_and (a a' : BitVec 6) (b b' c c' d d' e e' f f' g g' : BitVec 3) (z z' : BitVec 8) :
    (a ++ b ++ c ++ d ++ e ++ f ++ g ++ z) &&& (a' ++ b' ++ c' ++ d' ++ e' ++ f' ++ g' ++ z') =
      (a &&& a') ++ (b &&& b') ++ (c &&& c') ++ (d &&& d') ++ (e &&& e') ++ (f &&& f') ++ (g &&& g') ++ (z &&& z') := by
  simp only [BitVec.and_append]

theorem packWord_and_append (s2 s1 s0 d2 d1 d0 m2 m1 m0 n2 n1 n0 : Reg) (opc m : Byte) :
    packWord s2 s1 s0 d2 d1 d0 opc &&&
      (0x3F#6 ++ BitVec.ofFin (w := 3) m2 ++ BitVec.ofFin (w := 3) m1 ++ BitVec.ofFin (w := 3) m0 ++
        BitVec.ofFin (w := 3) n2 ++ BitVec.ofFin (w := 3) n1 ++ BitVec.ofFin (w := 3) n0 ++ m) =
      packWord (s2 &&& m2) (s1 &&& m1) (s0 &&& m0) (d2 &&& n2) (d1 &&& n1) (d0 &&& n0) (opc &&& m) := by
  unfold packWord
  simp only [ofFin_and]
  exact append_and 0#6 _ _ _ _ _ _ _ _ _ _ _ _ _ _ _

theorem packWord_and_packMask (s2 s1 s0 d2 d1 d0 m2 m1 m0 n2 n1 n0 : Reg) (opc : Byte) :
    packWord s2 s1 s0 d2 d1 d0 opc &&& packMask m2 m1 m0 n2 n1 n0 =
      packWord (s2 &&& m2) (s1 &&& m1) (s0 &&& m0) (d2 &&& n2) (d1 &&& n1) (d0 &&& n0) opc := by
  refine (packWord_and_append s2 s1 s0 d2 d1 d0 m2 m1 m0 n2 n1 n0 opc 0xFF#8).trans ?_
  rw [show opc &&& 0xFF#8 = opc by simpa using BitVec.and_allOnes (x := opc)]

theorem Reg.and_seven (a : Reg) : a &&& 7 = a := by revert a; decide
theorem Reg.and_zero (a : Reg) : a &&& 0 = 0 := by revert a; decide

/-- One row of the decoder on a packed word: the masked fields must be 0. -/
theorem decodeRow_packWord {mask mtch : Word} (m2 m1 m0 n2 n1 n0 : Reg) {o : Byte} (i : Instr)
    (hm : mask = packMask m2 m1 m0 n2 n1 n0) (hmt : mtch = packWord 0 0 0 0 0 0 o) (s2 s1 s0 d2 d1 d0 : Reg) :
    decodeRow (packWord s2 s1 s0 d2 d1 d0 o) mask mtch i =
      if s2 &&& m2 = 0 ∧ s1 &&& m1 = 0 ∧ s0 &&& m0 = 0 ∧ d2 &&& n2 = 0 ∧ d1 &&& n1 = 0 ∧ d0 &&& n0 = 0 then
        (if i.wellFormed then .ok i else .error .equalDestinations)
      else .error .unusedField := by
  have h : packWord s2 s1 s0 d2 d1 d0 o &&& mask = mtch ↔
      s2 &&& m2 = 0 ∧ s1 &&& m1 = 0 ∧ s0 &&& m0 = 0 ∧ d2 &&& n2 = 0 ∧ d1 &&& n1 = 0 ∧ d0 &&& n0 = 0 := by
    rw [hm, hmt, packWord_and_packMask, packWord_inj]; simp
  unfold decodeRow
  rw [fieldRES_packWord, if_neg (by simp)]
  by_cases hc : packWord s2 s1 s0 d2 d1 d0 o &&& mask = mtch
  · rw [if_neg (not_not.2 hc), if_pos (h.1 hc)]
  · rw [if_pos hc, if_neg (fun hh => hc (h.2 hh))]

/-! The decoder on a packed word, opcode by opcode (30_encoding.md R73, R74). -/

theorem decode_mrtest (s2 s1 s0 d2 d1 d0 : Reg) : decode (packWord s2 s1 s0 d2 d1 d0 0x01#8) =
    if s2 = 0 ∧ s1 = 0 ∧ d2 = 0 ∧ d1 = 0 ∧ d0 = 0 then .ok (.mrtest s0) else .error .unusedField := by
  unfold decode
  rw [fieldOPC_packWord, if_pos rfl, decodeRow_packWord 7 7 0 7 7 7 _ (by decide) (by decide)]
  simp [Reg.and_seven, Reg.and_zero, Instr.wellFormed]

theorem decode_genprime (s2 s1 s0 d2 d1 d0 : Reg) : decode (packWord s2 s1 s0 d2 d1 d0 0x02#8) =
    if s2 = 0 ∧ s1 = 0 ∧ d2 = 0 ∧ d1 = 0 then .ok (.genprime d0 s0) else .error .unusedField := by
  unfold decode
  rw [fieldOPC_packWord, if_neg (by decide), if_pos rfl, decodeRow_packWord 7 7 0 7 7 0 _ (by decide) (by decide)]
  simp [Reg.and_seven, Reg.and_zero, Instr.wellFormed]

theorem decode_egcd (s2 s1 s0 d2 d1 d0 : Reg) : decode (packWord s2 s1 s0 d2 d1 d0 0x03#8) =
    if s2 = 0 then
      (if d0 ≠ d1 ∧ d0 ≠ d2 ∧ d1 ≠ d2 then .ok (.egcd d0 d1 d2 s0 s1) else .error .equalDestinations)
    else .error .unusedField := by
  unfold decode
  rw [fieldOPC_packWord, if_neg (by decide), if_neg (by decide), if_pos rfl,
    decodeRow_packWord 7 0 0 0 0 0 _ (by decide) (by decide)]
  simp [Reg.and_seven, Reg.and_zero, Instr.wellFormed, and_assoc]

theorem decode_modinv (s2 s1 s0 d2 d1 d0 : Reg) : decode (packWord s2 s1 s0 d2 d1 d0 0x04#8) =
    if s2 = 0 ∧ d2 = 0 ∧ d1 = 0 then .ok (.modinv d0 s0 s1) else .error .unusedField := by
  unfold decode
  rw [fieldOPC_packWord, if_neg (by decide), if_neg (by decide), if_neg (by decide), if_pos rfl,
    decodeRow_packWord 7 0 0 7 7 0 _ (by decide) (by decide)]
  simp [Reg.and_seven, Reg.and_zero, Instr.wellFormed]

theorem decode_modexp (s2 s1 s0 d2 d1 d0 : Reg) : decode (packWord s2 s1 s0 d2 d1 d0 0x05#8) =
    if d2 = 0 ∧ d1 = 0 then .ok (.modexp d0 s0 s1 s2) else .error .unusedField := by
  unfold decode
  rw [fieldOPC_packWord, if_neg (by decide), if_neg (by decide), if_neg (by decide), if_neg (by decide), if_pos rfl,
    decodeRow_packWord 0 0 0 7 7 0 _ (by decide) (by decide)]
  simp [Reg.and_seven, Reg.and_zero, Instr.wellFormed]

theorem decode_blksize (s2 s1 s0 d2 d1 d0 : Reg) : decode (packWord s2 s1 s0 d2 d1 d0 0x06#8) =
    if s2 = 0 ∧ s1 = 0 ∧ d2 = 0 ∧ d1 = 0 then .ok (.blksize d0 s0) else .error .unusedField := by
  unfold decode
  rw [fieldOPC_packWord, if_neg (by decide), if_neg (by decide), if_neg (by decide), if_neg (by decide),
    if_neg (by decide), if_pos rfl, decodeRow_packWord 7 7 0 7 7 0 _ (by decide) (by decide)]
  simp [Reg.and_seven, Reg.and_zero, Instr.wellFormed]

theorem decode_encode (s2 s1 s0 d2 d1 d0 : Reg) : decode (packWord s2 s1 s0 d2 d1 d0 0x07#8) =
    if d2 = 0 ∧ d1 = 0 then .ok (.encode d0 s0 s1 s2) else .error .unusedField := by
  unfold decode
  rw [fieldOPC_packWord, if_neg (by decide), if_neg (by decide), if_neg (by decide), if_neg (by decide),
    if_neg (by decide), if_neg (by decide), if_pos rfl, decodeRow_packWord 0 0 0 7 7 0 _ (by decide) (by decide)]
  simp [Reg.and_seven, Reg.and_zero, Instr.wellFormed]

theorem decode_decode (s2 s1 s0 d2 d1 d0 : Reg) : decode (packWord s2 s1 s0 d2 d1 d0 0x08#8) =
    if s2 = 0 ∧ d2 = 0 ∧ d1 = 0 then .ok (.decode d0 s0 s1) else .error .unusedField := by
  unfold decode
  rw [fieldOPC_packWord, if_neg (by decide), if_neg (by decide), if_neg (by decide), if_neg (by decide),
    if_neg (by decide), if_neg (by decide), if_neg (by decide), if_pos rfl,
    decodeRow_packWord 7 0 0 7 7 0 _ (by decide) (by decide)]
  simp [Reg.and_seven, Reg.and_zero, Instr.wellFormed]

theorem decode_reserved (s2 s1 s0 d2 d1 d0 : Reg) {opc : Byte} (h : opc.toNat = 0 ∨ 9 ≤ opc.toNat) :
    decode (packWord s2 s1 s0 d2 d1 d0 opc) = .error .reservedOpcode := by
  have ne : ∀ o : Byte, 1 ≤ o.toNat → o.toNat ≤ 8 → opc ≠ o := by rintro o h1 h8 rfl; omega
  unfold decode
  rw [fieldOPC_packWord]
  rw [if_neg (ne _ (by decide) (by decide)), if_neg (ne _ (by decide) (by decide)), if_neg (ne _ (by decide) (by decide)),
    if_neg (ne _ (by decide) (by decide)), if_neg (ne _ (by decide) (by decide)), if_neg (ne _ (by decide) (by decide)),
    if_neg (ne _ (by decide) (by decide)), if_neg (ne _ (by decide) (by decide))]

/-- A word whose RES is not 0 is rejected. -/
theorem decode_of_fieldRES_ne {w : Word} (h : fieldRES w ≠ 0) : ∃ r, decode w = .error r := by
  have row : ∀ mask mtch i, decodeRow w mask mtch i = .error .reservedBits := fun _ _ _ => by
    unfold decodeRow; rw [if_pos h]
  unfold decode
  simp only [row]
  repeat' split
  all_goals exact ⟨_, rfl⟩

/-- The nine cases of an opcode byte. -/
theorem opcode_cases (opc : Byte) :
    (opc.toNat = 0 ∨ 9 ≤ opc.toNat) ∨ opc = 0x01#8 ∨ opc = 0x02#8 ∨ opc = 0x03#8 ∨ opc = 0x04#8 ∨ opc = 0x05#8 ∨
      opc = 0x06#8 ∨ opc = 0x07#8 ∨ opc = 0x08#8 := by
  simp only [← BitVec.toNat_inj, BitVec.toNat_ofNat]
  omega

end Sys2Proof
end

