-- ==== Sys2Proof/Laws/State.lean ====
section
/-! SUPPORT. One lemma per field of State per update, so that no proof unfolds a record update. -/

namespace Sys2Proof.Machine

/-! ## `finish`: the end of a commit (60_exceptions.md R204) -/

@[simp] theorem State.finish_params (s : State) (e : ErrorCode) : (s.finish e).params = s.params := rfl
@[simp] theorem State.finish_x (s : State) (e : ErrorCode) : (s.finish e).x = s.x := rfl
@[simp] theorem State.finish_sign (s : State) (e : ErrorCode) : (s.finish e).sign = s.sign := rfl
@[simp] theorem State.finish_buf (s : State) (e : ErrorCode) : (s.finish e).buf = s.buf := rfl
@[simp] theorem State.finish_ie (s : State) (e : ErrorCode) : (s.finish e).ie = s.ie := rfl
@[simp] theorem State.finish_busy (s : State) (e : ErrorCode) : (s.finish e).busy = false := rfl
@[simp] theorem State.finish_done (s : State) (e : ErrorCode) : (s.finish e).done = true := rfl
@[simp] theorem State.finish_prime (s : State) (e : ErrorCode) : (s.finish e).prime = s.prime := rfl
@[simp] theorem State.finish_ovr (s : State) (e : ErrorCode) : (s.finish e).ovr = s.ovr := rfl
@[simp] theorem State.finish_err (s : State) (e : ErrorCode) : (s.finish e).err = e := rfl
@[simp] theorem State.finish_cmd (s : State) (e : ErrorCode) : (s.finish e).cmd = s.cmd := rfl
@[simp] theorem State.finish_random (s : State) (e : ErrorCode) : (s.finish e).random = s.random := rfl
@[simp] theorem State.finish_free (s : State) (e : ErrorCode) : (s.finish e).free = s.free := rfl
@[simp] theorem State.finish_agenda (s : State) (e : ErrorCode) : (s.finish e).agenda = s.agenda := rfl
@[simp] theorem State.finish_reads (s : State) (e : ErrorCode) : (s.finish e).reads = s.reads := rfl

/-! ## `setReg`: the write of one X register -/

@[simp] theorem State.setReg_params (s : State) (i : Reg) (v : Nat) (b : Bool) : (s.setReg i v b).params = s.params := rfl
@[simp] theorem State.setReg_x (s : State) (i : Reg) (v : Nat) (b : Bool) : (s.setReg i v b).x = s.x.set i v := rfl
@[simp] theorem State.setReg_sign (s : State) (i : Reg) (v : Nat) (b : Bool) : (s.setReg i v b).sign = signWith s.sign i b := rfl
@[simp] theorem State.setReg_buf (s : State) (i : Reg) (v : Nat) (b : Bool) : (s.setReg i v b).buf = s.buf := rfl
@[simp] theorem State.setReg_ie (s : State) (i : Reg) (v : Nat) (b : Bool) : (s.setReg i v b).ie = s.ie := rfl
@[simp] theorem State.setReg_busy (s : State) (i : Reg) (v : Nat) (b : Bool) : (s.setReg i v b).busy = s.busy := rfl
@[simp] theorem State.setReg_done (s : State) (i : Reg) (v : Nat) (b : Bool) : (s.setReg i v b).done = s.done := rfl
@[simp] theorem State.setReg_prime (s : State) (i : Reg) (v : Nat) (b : Bool) : (s.setReg i v b).prime = s.prime := rfl
@[simp] theorem State.setReg_ovr (s : State) (i : Reg) (v : Nat) (b : Bool) : (s.setReg i v b).ovr = s.ovr := rfl
@[simp] theorem State.setReg_err (s : State) (i : Reg) (v : Nat) (b : Bool) : (s.setReg i v b).err = s.err := rfl
@[simp] theorem State.setReg_cmd (s : State) (i : Reg) (v : Nat) (b : Bool) : (s.setReg i v b).cmd = s.cmd := rfl
@[simp] theorem State.setReg_random (s : State) (i : Reg) (v : Nat) (b : Bool) : (s.setReg i v b).random = s.random := rfl
@[simp] theorem State.setReg_free (s : State) (i : Reg) (v : Nat) (b : Bool) : (s.setReg i v b).free = s.free := rfl
@[simp] theorem State.setReg_agenda (s : State) (i : Reg) (v : Nat) (b : Bool) : (s.setReg i v b).agenda = s.agenda := rfl
@[simp] theorem State.setReg_reads (s : State) (i : Reg) (v : Nat) (b : Bool) : (s.setReg i v b).reads = s.reads := rfl

@[simp] theorem State.writeX_eq_setReg (s : State) (i : Reg) (v : Nat) : s.writeX i v = s.setReg i v false := rfl

@[simp] theorem State.writeXs_eq_setReg (s : State) (i : Reg) (v : Int) :
    s.writeXs i v = s.setReg i v.natAbs (decide (v < 0)) := rfl

/-! ## `scramble` and `resetControl`: the two halves of a reset -/

@[simp] theorem State.scramble_params (s : State) : (s.scramble).params = s.params := rfl
@[simp] theorem State.scramble_x (s : State) : (s.scramble).x = Vector.ofFn fun i : Fin 8 => Config.freeMagnitude s.free i % 2 ^ s.params.w := rfl
@[simp] theorem State.scramble_sign (s : State) : (s.scramble).sign = Config.freeSign s.free := rfl
@[simp] theorem State.scramble_buf (s : State) : (s.scramble).buf = Memory.ofFn (Config.freeByte s.free) s.params.bufBytes := rfl
@[simp] theorem State.scramble_ie (s : State) : (s.scramble).ie = s.ie := rfl
@[simp] theorem State.scramble_busy (s : State) : (s.scramble).busy = s.busy := rfl
@[simp] theorem State.scramble_done (s : State) : (s.scramble).done = s.done := rfl
@[simp] theorem State.scramble_prime (s : State) : (s.scramble).prime = s.prime := rfl
@[simp] theorem State.scramble_ovr (s : State) : (s.scramble).ovr = s.ovr := rfl
@[simp] theorem State.scramble_err (s : State) : (s.scramble).err = s.err := rfl
@[simp] theorem State.scramble_cmd (s : State) : (s.scramble).cmd = s.cmd := rfl
@[simp] theorem State.scramble_random (s : State) : (s.scramble).random = s.random := rfl
@[simp] theorem State.scramble_free (s : State) : (s.scramble).free = s.free + 1 := rfl
@[simp] theorem State.scramble_agenda (s : State) : (s.scramble).agenda = s.agenda := rfl
@[simp] theorem State.scramble_reads (s : State) : (s.scramble).reads = s.reads := rfl
@[simp] theorem State.resetControl_params (s : State) : (s.resetControl).params = s.params := rfl
@[simp] theorem State.resetControl_x (s : State) : (s.resetControl).x = s.x := rfl
@[simp] theorem State.resetControl_sign (s : State) : (s.resetControl).sign = s.sign := rfl
@[simp] theorem State.resetControl_buf (s : State) : (s.resetControl).buf = s.buf := rfl
@[simp] theorem State.resetControl_ie (s : State) : (s.resetControl).ie = false := rfl
@[simp] theorem State.resetControl_busy (s : State) : (s.resetControl).busy = false := rfl
@[simp] theorem State.resetControl_done (s : State) : (s.resetControl).done = false := rfl
@[simp] theorem State.resetControl_prime (s : State) : (s.resetControl).prime = false := rfl
@[simp] theorem State.resetControl_ovr (s : State) : (s.resetControl).ovr = false := rfl
@[simp] theorem State.resetControl_err (s : State) : (s.resetControl).err = .ok := rfl
@[simp] theorem State.resetControl_cmd (s : State) : (s.resetControl).cmd = 0x00000000#32 := rfl
@[simp] theorem State.resetControl_random (s : State) : (s.resetControl).random = s.random := rfl
@[simp] theorem State.resetControl_free (s : State) : (s.resetControl).free = s.free := rfl
@[simp] theorem State.resetControl_agenda (s : State) : (s.resetControl).agenda = s.agenda := rfl
@[simp] theorem State.resetControl_reads (s : State) : (s.resetControl).reads = s.reads := rfl

/-! ## `writeStatus`: write 1 to clear (10_state.md R27) -/

@[simp] theorem State.writeStatus_params (s : State) (v : Word) : (s.writeStatus v).params = s.params := rfl
@[simp] theorem State.writeStatus_x (s : State) (v : Word) : (s.writeStatus v).x = s.x := rfl
@[simp] theorem State.writeStatus_sign (s : State) (v : Word) : (s.writeStatus v).sign = s.sign := rfl
@[simp] theorem State.writeStatus_buf (s : State) (v : Word) : (s.writeStatus v).buf = s.buf := rfl
@[simp] theorem State.writeStatus_ie (s : State) (v : Word) : (s.writeStatus v).ie = s.ie := rfl
@[simp] theorem State.writeStatus_busy (s : State) (v : Word) : (s.writeStatus v).busy = s.busy := rfl
@[simp] theorem State.writeStatus_done (s : State) (v : Word) : (s.writeStatus v).done = (s.done && !v[1]) := rfl
@[simp] theorem State.writeStatus_prime (s : State) (v : Word) : (s.writeStatus v).prime = s.prime := rfl
@[simp] theorem State.writeStatus_ovr (s : State) (v : Word) : (s.writeStatus v).ovr = (s.ovr && !v[3]) := rfl
@[simp] theorem State.writeStatus_err (s : State) (v : Word) : (s.writeStatus v).err = s.err := rfl
@[simp] theorem State.writeStatus_cmd (s : State) (v : Word) : (s.writeStatus v).cmd = s.cmd := rfl
@[simp] theorem State.writeStatus_random (s : State) (v : Word) : (s.writeStatus v).random = s.random := rfl
@[simp] theorem State.writeStatus_free (s : State) (v : Word) : (s.writeStatus v).free = s.free := rfl
@[simp] theorem State.writeStatus_agenda (s : State) (v : Word) : (s.writeStatus v).agenda = s.agenda := rfl
@[simp] theorem State.writeStatus_reads (s : State) (v : Word) : (s.writeStatus v).reads = s.reads := rfl

/-! ## `powerOn`: the fields that 70_reset_and_hazards.md R231 fixes -/

@[simp] theorem State.powerOn_params (p : Params) (x : Vector Nat 8) (g : BitVec 8) (m : Memory) (r : RandomSource) :
    (State.powerOn p x g m r).params = p := rfl
@[simp] theorem State.powerOn_x (p : Params) (x : Vector Nat 8) (g : BitVec 8) (m : Memory) (r : RandomSource) :
    (State.powerOn p x g m r).x = x := rfl
@[simp] theorem State.powerOn_sign (p : Params) (x : Vector Nat 8) (g : BitVec 8) (m : Memory) (r : RandomSource) :
    (State.powerOn p x g m r).sign = g := rfl
@[simp] theorem State.powerOn_buf (p : Params) (x : Vector Nat 8) (g : BitVec 8) (m : Memory) (r : RandomSource) :
    (State.powerOn p x g m r).buf = m := rfl
@[simp] theorem State.powerOn_ie (p : Params) (x : Vector Nat 8) (g : BitVec 8) (m : Memory) (r : RandomSource) :
    (State.powerOn p x g m r).ie = false := rfl
@[simp] theorem State.powerOn_busy (p : Params) (x : Vector Nat 8) (g : BitVec 8) (m : Memory) (r : RandomSource) :
    (State.powerOn p x g m r).busy = false := rfl
@[simp] theorem State.powerOn_done (p : Params) (x : Vector Nat 8) (g : BitVec 8) (m : Memory) (r : RandomSource) :
    (State.powerOn p x g m r).done = false := rfl
@[simp] theorem State.powerOn_prime (p : Params) (x : Vector Nat 8) (g : BitVec 8) (m : Memory) (r : RandomSource) :
    (State.powerOn p x g m r).prime = false := rfl
@[simp] theorem State.powerOn_ovr (p : Params) (x : Vector Nat 8) (g : BitVec 8) (m : Memory) (r : RandomSource) :
    (State.powerOn p x g m r).ovr = false := rfl
@[simp] theorem State.powerOn_err (p : Params) (x : Vector Nat 8) (g : BitVec 8) (m : Memory) (r : RandomSource) :
    (State.powerOn p x g m r).err = .ok := rfl
@[simp] theorem State.powerOn_cmd (p : Params) (x : Vector Nat 8) (g : BitVec 8) (m : Memory) (r : RandomSource) :
    (State.powerOn p x g m r).cmd = 0x00000000#32 := rfl
@[simp] theorem State.powerOn_random (p : Params) (x : Vector Nat 8) (g : BitVec 8) (m : Memory) (r : RandomSource) :
    (State.powerOn p x g m r).random = r := rfl
@[simp] theorem State.powerOn_free (p : Params) (x : Vector Nat 8) (g : BitVec 8) (m : Memory) (r : RandomSource) :
    (State.powerOn p x g m r).free = 0 := rfl
@[simp] theorem State.powerOn_agenda (p : Params) (x : Vector Nat 8) (g : BitVec 8) (m : Memory) (r : RandomSource) :
    (State.powerOn p x g m r).agenda = [] := rfl
@[simp] theorem State.powerOn_reads (p : Params) (x : Vector Nat 8) (g : BitVec 8) (m : Memory) (r : RandomSource) :
    (State.powerOn p x g m r).reads = [] := rfl

/-! ## `mag` and `signBit` -/

theorem getLsbD_signWith (g : BitVec 8) (i j : Reg) (b : Bool) :
    (signWith g i b).getLsbD j = if j = i then b else g.getLsbD j := by
  have hj : (j : Nat) < 8 := j.isLt
  by_cases h : j = i
  · subst h; cases b <;> simp [signWith, hj]
  · have h' : ¬(j : Nat) = i := fun e => h (Fin.ext e)
    cases b <;> simp [signWith, h, h']

@[simp] theorem State.mag_setReg (s : State) (i j : Reg) (v : Nat) (b : Bool) :
    (s.setReg i v b).mag j = if j = i then v else s.mag j := by
  by_cases h : j = i
  · subst h; simp [State.mag]
  · have h' : ¬(i : Nat) = j := fun e => h (Fin.ext e.symm)
    simp [State.mag, h, h']

@[simp] theorem State.signBit_setReg (s : State) (i j : Reg) (v : Nat) (b : Bool) :
    (s.setReg i v b).signBit j = if j = i then b else s.signBit j :=
  getLsbD_signWith s.sign i j b

@[simp] theorem State.mag_finish (s : State) (e : ErrorCode) (j : Reg) : (s.finish e).mag j = s.mag j := rfl

@[simp] theorem State.signBit_finish (s : State) (e : ErrorCode) (j : Reg) : (s.finish e).signBit j = s.signBit j := rfl

theorem State.mag_of_x_eq {s t : State} (h : t.x = s.x) (j : Reg) : t.mag j = s.mag j := by simp [State.mag, h]

theorem State.signBit_of_sign_eq {s t : State} (h : t.sign = s.sign) (j : Reg) : t.signBit j = s.signBit j := by
  simp [State.signBit, h]

/-- A register written with `Xs` has the value written. -/
theorem State.val_writeXs (s : State) (i : Reg) (v : Int) : (s.writeXs i v).val i = v := by
  simp only [State.val, State.writeXs_eq_setReg, State.signBit_setReg, State.mag_setReg, if_true, decide_eq_true_eq]
  split <;> omega

/-! ## `afterTurn`: the turn taken off the agenda -/

@[simp] theorem State.afterTurn_params (s : State) : s.afterTurn.params = s.params := rfl
@[simp] theorem State.afterTurn_x (s : State) : s.afterTurn.x = s.x := rfl
@[simp] theorem State.afterTurn_sign (s : State) : s.afterTurn.sign = s.sign := rfl
@[simp] theorem State.afterTurn_buf (s : State) : s.afterTurn.buf = s.buf := rfl
@[simp] theorem State.afterTurn_ie (s : State) : s.afterTurn.ie = s.ie := rfl
@[simp] theorem State.afterTurn_busy (s : State) : s.afterTurn.busy = s.busy := rfl
@[simp] theorem State.afterTurn_done (s : State) : s.afterTurn.done = s.done := rfl
@[simp] theorem State.afterTurn_prime (s : State) : s.afterTurn.prime = s.prime := rfl
@[simp] theorem State.afterTurn_ovr (s : State) : s.afterTurn.ovr = s.ovr := rfl
@[simp] theorem State.afterTurn_err (s : State) : s.afterTurn.err = s.err := rfl
@[simp] theorem State.afterTurn_cmd (s : State) : s.afterTurn.cmd = s.cmd := rfl
@[simp] theorem State.afterTurn_random (s : State) : s.afterTurn.random = s.random := rfl
@[simp] theorem State.afterTurn_free (s : State) : s.afterTurn.free = s.free := rfl
@[simp] theorem State.afterTurn_agenda (s : State) : s.afterTurn.agenda = s.agenda.tail := rfl
@[simp] theorem State.afterTurn_reads (s : State) : s.afterTurn.reads = s.reads := rfl

@[simp] theorem State.mag_afterTurn (s : State) (j : Reg) : s.afterTurn.mag j = s.mag j := rfl

@[simp] theorem State.signBit_afterTurn (s : State) (j : Reg) : s.afterTurn.signBit j = s.signBit j := rfl

theorem State.afterTurn_of_nil {s : State} (h : s.agenda = []) : s.afterTurn = s := by
  cases s; simp_all [State.afterTurn]

theorem State.afterTurn_of_cons {s : State} {turn : Turn} {rest : List Turn} (h : s.agenda = turn :: rest) :
    s.afterTurn = { s with agenda := rest } := by
  simp [State.afterTurn, h]

end Sys2Proof.Machine
end

