-- ==== Sys2Proof/Laws/Memory.lean ====
section
/-! SUPPORT. BUF's memory: every operation keeps the canonical form, and what a read gives after a write. -/

namespace Sys2Proof.Machine

/-- Every listed address of `m` is above `a`. -/
def Memory.above (m : Memory) (a : Nat) : Prop := ∀ c ∈ m, a < c.1

theorem Memory.wf_nil : Memory.wf [] := by simp [Memory.wf]

theorem Memory.wf_cons_iff {k : Nat} {c : Byte} {m : Memory} :
    Memory.wf ((k, c) :: m) ↔ m.above k ∧ c ≠ Memory.unlisted ∧ m.wf := by
  simp only [Memory.wf, Memory.above, List.pairwise_cons, List.forall_mem_cons]
  tauto

@[simp] theorem Memory.read_nil (a : Nat) : Memory.read [] a = Memory.unlisted := rfl

theorem Memory.read_cons (k : Nat) (c : Byte) (m : Memory) (a : Nat) :
    Memory.read ((k, c) :: m) a = if k = a then c else m.read a := rfl

theorem Memory.read_of_above {m : Memory} {a a' : Nat} (h : m.above a) (ha : a' ≤ a) : m.read a' = Memory.unlisted := by
  induction m with
  | nil => rfl
  | cons c m ih =>
    obtain ⟨k, b⟩ := c
    have hk : a < k := h (k, b) (by simp)
    rw [Memory.read_cons, if_neg (by omega)]
    exact ih fun c hc => h c (by simp [hc])

theorem Memory.read_put {m : Memory} {a : Nat} (b : Byte) (h : m.above a) (a' : Nat) :
    (Memory.cons a b m).read a' = if a' = a then b else m.read a' := by
  unfold Memory.cons
  by_cases hb : b = Memory.unlisted
  · rw [if_pos hb]
    split
    · next e => rw [e, hb]; exact Memory.read_of_above h (Nat.le_refl a)
    · rfl
  · rw [if_neg hb, Memory.read_cons]
    simp [eq_comm]

theorem Memory.wf_put {m : Memory} {a : Nat} (b : Byte) (h : m.above a) (hm : m.wf) : (Memory.cons a b m).wf := by
  unfold Memory.cons
  split
  · exact hm
  · next hb => exact Memory.wf_cons_iff.2 ⟨h, hb, hm⟩

theorem Memory.above_put {m : Memory} {a k : Nat} (b : Byte) (hk : k < a) (h : m.above k) : (Memory.cons a b m).above k := by
  unfold Memory.cons
  split
  · exact h
  · intro c hc
    rcases List.mem_cons.1 hc with rfl | hc
    · exact hk
    · exact h c hc

theorem Memory.above_write {m : Memory} {a k : Nat} (b : Byte) (hk : k < a) (h : m.above k) : (m.write a b).above k := by
  induction m with
  | nil => exact Memory.above_put b hk h
  | cons c m ih =>
    obtain ⟨k', c⟩ := c
    have hm : Memory.above m k := fun c hc => h c (List.mem_cons_of_mem _ hc)
    unfold Memory.write
    split
    · exact Memory.above_put b hk h
    · split
      · exact Memory.above_put b hk hm
      · intro c' hc
        rcases List.mem_cons.1 hc with rfl | hc
        · exact h _ (by simp)
        · exact ih hm c' hc

/-- A write keeps the canonical form. -/
theorem Memory.wf_write {m : Memory} (hm : m.wf) (a : Nat) (b : Byte) : (m.write a b).wf := by
  induction m with
  | nil => exact Memory.wf_put b (by simp [Memory.above]) hm
  | cons c m ih =>
    obtain ⟨k, c⟩ := c
    obtain ⟨hk, hc, hm'⟩ := Memory.wf_cons_iff.1 hm
    unfold Memory.write
    split
    · next hlt =>
      refine Memory.wf_put b (fun c' hc' => ?_) hm
      rcases List.mem_cons.1 hc' with rfl | hc'
      · exact hlt
      · exact Nat.lt_trans hlt (hk c' hc')
    · split
      · next e => exact Memory.wf_put b (e ▸ hk) hm'
      · exact Memory.wf_cons_iff.2 ⟨Memory.above_write b (by omega) hk, hc, ih hm'⟩

/-- A read after a write. -/
theorem Memory.read_write {m : Memory} (hm : m.wf) (a : Nat) (b : Byte) (a' : Nat) :
    (m.write a b).read a' = if a' = a then b else m.read a' := by
  induction m with
  | nil => exact Memory.read_put b (by simp [Memory.above]) a'
  | cons c m ih =>
    obtain ⟨k, c⟩ := c
    obtain ⟨hk, -, hm'⟩ := Memory.wf_cons_iff.1 hm
    unfold Memory.write
    split
    · next hlt =>
      refine Memory.read_put b (fun c' hc' => ?_) a'
      rcases List.mem_cons.1 hc' with rfl | hc'
      · exact hlt
      · exact Nat.lt_trans hlt (hk c' hc')
    · split
      · next e =>
        subst e
        rw [Memory.read_put b hk, Memory.read_cons]
        split
        · rfl
        · rw [if_neg (by omega)]
      · next hne =>
        rw [Memory.read_cons, Memory.read_cons, ih hm']
        by_cases h : k = a'
        · rw [if_pos h, if_pos h, if_neg (by omega)]
        · rw [if_neg h, if_neg h]

theorem Memory.below_put {m : Memory} {a n : Nat} (b : Byte) (ha : a < n) (h : m.below n) : (Memory.cons a b m).below n := by
  unfold Memory.cons
  split
  · exact h
  · exact List.forall_mem_cons.2 ⟨ha, h⟩

/-- A write below `n` keeps every listed address below `n`. -/
theorem Memory.below_write {m : Memory} {a n : Nat} (b : Byte) (ha : a < n) (h : m.below n) : (m.write a b).below n := by
  induction m with
  | nil => exact Memory.below_put b ha h
  | cons c m ih =>
    obtain ⟨k, c⟩ := c
    obtain ⟨hk, hm⟩ := List.forall_mem_cons.1 h
    unfold Memory.write
    split
    · exact Memory.below_put b ha h
    · split
      · exact Memory.below_put b ha hm
      · exact List.forall_mem_cons.2 ⟨hk, ih hm⟩

theorem Memory.wf_writeBytes {m : Memory} (hm : m.wf) (bs : List Byte) (a : Nat) : (m.writeBytes a bs).wf := by
  induction bs generalizing m a with
  | nil => exact hm
  | cons b bs ih => exact ih (Memory.wf_write hm a b) (a + 1)

theorem Memory.below_writeBytes {m : Memory} {n : Nat} (bs : List Byte) (a : Nat) (ha : a + bs.length ≤ n)
    (h : m.below n) : (m.writeBytes a bs).below n := by
  induction bs generalizing m a with
  | nil => exact h
  | cons b bs ih =>
    have hl : a + (bs.length + 1) ≤ n := by simpa using ha
    exact ih (a + 1) (by omega) (Memory.below_write b (by omega) h)

/-- A read after a string is written: the string's byte inside its range, the old byte outside. -/
theorem Memory.read_writeBytes {m : Memory} (hm : m.wf) (bs : List Byte) (a a' : Nat) :
    (m.writeBytes a bs).read a' = if a ≤ a' then bs.getD (a' - a) (m.read a') else m.read a' := by
  induction bs generalizing m a with
  | nil => simp [Memory.writeBytes]
  | cons b bs ih =>
    rw [Memory.writeBytes, ih (Memory.wf_write hm a b), Memory.read_write hm]
    rcases Nat.lt_trichotomy a' a with h | h | h
    · rw [if_neg (by omega), if_neg (by omega), if_neg (by omega)]
    · subst h; simp
    · obtain ⟨k, rfl⟩ : ∃ k, a' = a + k + 1 := ⟨a' - a - 1, by omega⟩
      rw [if_pos (by omega), if_neg (by omega), if_pos (by omega), show a + k + 1 - (a + 1) = k by omega,
        show a + k + 1 - a = k + 1 by omega, List.getD_cons_succ]

theorem Memory.wf_ofFn (f : Nat → Byte) (n : Nat) : (Memory.ofFn f n).wf := by
  induction n with
  | zero => exact Memory.wf_nil
  | succ n ih => exact Memory.wf_write ih n (f n)

theorem Memory.below_ofFn (f : Nat → Byte) (n : Nat) : (Memory.ofFn f n).below n := by
  induction n with
  | zero => simp [Memory.ofFn, Memory.below]
  | succ n ih => exact Memory.below_write (f n) (by omega) fun c hc => Nat.lt_succ_of_lt (ih c hc)

theorem Memory.read_ofFn (f : Nat → Byte) (n a : Nat) :
    (Memory.ofFn f n).read a = if a < n then f a else Memory.unlisted := by
  induction n with
  | zero => simp [Memory.ofFn]
  | succ n ih =>
    rw [Memory.ofFn, Memory.read_write (Memory.wf_ofFn f n), ih]
    rcases Nat.lt_trichotomy a n with h | h | h
    · rw [if_neg (by omega), if_pos h, if_pos (by omega)]
    · subst h; simp
    · rw [if_neg (by omega), if_neg (by omega), if_neg (by omega)]

@[simp] theorem Memory.length_readBytes (m : Memory) (a n : Nat) : (m.readBytes a n).length = n := by
  induction n generalizing a with
  | zero => rfl
  | succ n ih => simp [Memory.readBytes, ih]

/-- Byte `i` of a string read from BUF. -/
theorem Memory.getElem_readBytes (m : Memory) (a n i : Nat) (h : i < (m.readBytes a n).length) :
    (m.readBytes a n)[i] = m.read (a + i) := by
  induction n generalizing a i with
  | zero => simp [Memory.readBytes] at h
  | succ n ih =>
    cases i with
    | zero => rfl
    | succ i =>
      simp only [Memory.readBytes, List.getElem_cons_succ]
      rw [ih, show a + 1 + i = a + (i + 1) by omega]

end Sys2Proof.Machine
end

