-- ==== Sys2Proof/Laws/Ops.lean ====
section
/-! SUPPORT. What the shared operations do: operand reads, raised errors, the commit, draws, the parts of a bus access. -/

namespace Sys2Proof.Machine

/-! ## Operands and errors (00_scope.md R11) -/

theorem State.uarg_of_neg {s : State} {i : Reg} (h : s.signBit i = true) : s.uarg i = .error .domainError := by
  simp [State.uarg, h]

theorem State.uarg_of_nonneg {s : State} {i : Reg} (h : s.signBit i = false) : s.uarg i = .ok (s.mag i) := by
  simp [State.uarg, h]

/-- An operand read gives the magnitude where the sign bit is 0, and otherwise DomainError. -/
theorem State.uarg_eq (s : State) (i : Reg) :
    s.uarg i = if s.signBit i = true then .error .domainError else .ok (s.mag i) := rfl

@[simp] theorem raiseIf_true (e : ErrorCode) : raiseIf true e = .error e := rfl

@[simp] theorem raiseIf_false (e : ErrorCode) : raiseIf false e = .ok () := rfl

@[simp] theorem Except.ok_bind_eq {ε α β : Type} (a : α) (f : α → Except ε β) : (Except.ok a >>= f) = f a := rfl

@[simp] theorem Except.error_bind_eq {ε α β : Type} (e : ε) (f : α → Except ε β) :
    ((Except.error e : Except ε α) >>= f) = .error e := rfl

/-! ## The commit (60_exceptions.md R204) -/

@[simp] theorem commit_ok (s u : State) : commit s (.ok u) = .next (u.finish .ok) := rfl

@[simp] theorem commit_error (s : State) (e : ErrorCode) : commit s (.error e) = .next (s.finish e) := rfl

/-- A commit always answers a next state: that of the written state with code 0, or that of the old state with the code. -/
theorem commit_cases (s : State) (o : Except ErrorCode State) :
    (∃ u, o = .ok u ∧ commit s o = .next (u.finish .ok)) ∨ (∃ e, o = .error e ∧ commit s o = .next (s.finish e)) := by
  cases o with
  | ok u => exact .inl ⟨u, rfl, rfl⟩
  | error e => exact .inr ⟨e, rfl, rfl⟩

/-! ## Draws (10_state.md R37) -/

theorem fitDraw_bounds {lo hi : Nat} (h : lo ≤ hi) (v : Nat) : lo ≤ fitDraw lo hi v ∧ fitDraw lo hi v ≤ hi := by
  unfold fitDraw
  split
  · omega
  · split
    · omega
    · have := Nat.mod_lt v (show 0 < hi - lo + 1 by omega)
      omega

theorem fitDraw_of_mem {lo hi v : Nat} (h : lo ≤ v) (h' : v ≤ hi) : fitDraw lo hi v = v := by
  unfold fitDraw
  split
  · omega
  · rw [if_pos ⟨h, h'⟩]

/-- A draw gives a value of its range and counts one draw. -/
theorem RandomSource.draw_spec (r : RandomSource) {lo hi : Nat} (h : lo ≤ hi) :
    lo ≤ (r.draw lo hi).1 ∧ (r.draw lo hi).1 ≤ hi ∧ (r.draw lo hi).2.drawn = r.drawn + 1 := by
  obtain ⟨answers, drawn⟩ := r
  cases answers with
  | nil => exact ⟨(fitDraw_bounds h _).1, (fitDraw_bounds h _).2, rfl⟩
  | cons v rest => exact ⟨(fitDraw_bounds h _).1, (fitDraw_bounds h _).2, rfl⟩

@[simp] theorem RandomSource.draw_drawn (r : RandomSource) (lo hi : Nat) : (r.draw lo hi).2.drawn = r.drawn + 1 := by
  obtain ⟨answers, drawn⟩ := r
  cases answers <;> rfl

/-- A listed answer of the range is the value drawn. -/
theorem RandomSource.draw_listed {lo hi v : Nat} (rest : List Nat) (k : Nat) (h : lo ≤ v) (h' : v ≤ hi) :
    RandomSource.draw { answers := v :: rest, drawn := k } lo hi = (v, { answers := rest, drawn := k + 1 }) := by
  simp [RandomSource.draw, fitDraw_of_mem h h']

/-! ## Numbers (00_scope.md R10) -/

/-- `bitlen(v)` is the least k with v < 2^k. -/
theorem bitlen_le_iff (v k : Nat) : bitlen v ≤ k ↔ v < 2 ^ k := by
  unfold bitlen
  split
  · next h => subst h; simp
  · next h => rw [Nat.succ_le_iff, Nat.log2_lt h]

theorem lt_two_pow_bitlen (v : Nat) : v < 2 ^ bitlen v := (bitlen_le_iff v _).1 (Nat.le_refl _)

/-! ## Limbs and the map of the window (20_memory.md R51 to R53) -/

/-- Digit j' in base B of a number whose digit j was replaced. -/
theorem digit_replace {B : Nat} (hB : 0 < B) (v j j' : Nat) {w : Nat} (hw : w < B) :
    (v % B ^ j + w * B ^ j + v / B ^ (j + 1) * B ^ (j + 1)) / B ^ j' % B = if j' = j then w else v / B ^ j' % B := by
  have hlow : v % B ^ j < B ^ j := Nat.mod_lt _ (pow_pos hB j)
  rw [show v % B ^ j + w * B ^ j + v / B ^ (j + 1) * B ^ (j + 1) =
    v % B ^ j + B ^ j * (w + B * (v / B ^ (j + 1))) by ring]
  rcases Nat.lt_trichotomy j' j with h | h | h
  · obtain ⟨k, rfl⟩ : ∃ k, j = j' + 1 + k := ⟨j - j' - 1, by omega⟩
    rw [if_neg (by omega)]
    have e : B ^ (j' + 1 + k) = B ^ j' * (B * B ^ k) := by ring
    have hv : v % B ^ (j' + 1 + k) / B ^ j' % B = v / B ^ j' % B := by
      rw [e, Nat.mod_mul_right_div_self, Nat.mod_mul_right_mod]
    rw [← hv]
    generalize v % B ^ (j' + 1 + k) = a
    rw [e, show ∀ X, a + B ^ j' * (B * B ^ k) * X = a + B ^ j' * (B * (B ^ k * X)) from fun X => by ring,
      Nat.add_mul_div_left _ _ (pow_pos hB j'), Nat.add_mul_mod_self_left]
  · subst h
    rw [if_pos rfl, Nat.add_mul_div_left _ _ (pow_pos hB j'), Nat.div_eq_of_lt hlow, Nat.zero_add,
      Nat.add_mul_mod_self_left, Nat.mod_eq_of_lt hw]
  · obtain ⟨k, rfl⟩ : ∃ k, j' = j + (1 + k) := ⟨j' - j - 1, by omega⟩
    rw [if_neg (by omega), pow_add B j (1 + k), pow_add B 1 k, pow_one, ← Nat.div_div_eq_div_mul,
      Nat.add_mul_div_left _ _ (pow_pos hB j), Nat.div_eq_of_lt hlow, Nat.zero_add, ← Nat.div_div_eq_div_mul,
      Nat.add_mul_div_left _ _ hB, Nat.div_eq_of_lt hw, Nat.zero_add, pow_succ, Nat.div_div_eq_div_mul,
      Nat.mul_assoc]

/-- Replacing digit j < n keeps a number below B^n. -/
theorem digit_replace_lt {B : Nat} {v j n w : Nat} (hw : w < B) (hj : j < n) (hv : v < B ^ n) :
    v % B ^ j + w * B ^ j + v / B ^ (j + 1) * B ^ (j + 1) < B ^ n := by
  have hB : 0 < B := by omega
  have hlow : v % B ^ j < B ^ j := Nat.mod_lt _ (pow_pos hB j)
  obtain ⟨k, rfl⟩ : ∃ k, n = k + (j + 1) := ⟨n - (j + 1), by omega⟩
  have hq : v / B ^ (j + 1) < B ^ k := by
    rw [Nat.div_lt_iff_lt_mul (pow_pos hB _), ← pow_add]
    exact hv
  have h1 : v % B ^ j + w * B ^ j < B ^ (j + 1) :=
    calc v % B ^ j + w * B ^ j < B ^ j + w * B ^ j := by omega
      _ = (w + 1) * B ^ j := by ring
      _ ≤ B * B ^ j := Nat.mul_le_mul_right _ hw
      _ = B ^ (j + 1) := by ring
  calc _ < B ^ (j + 1) + v / B ^ (j + 1) * B ^ (j + 1) := by omega
    _ = (v / B ^ (j + 1) + 1) * B ^ (j + 1) := by ring
    _ ≤ B ^ k * B ^ (j + 1) := Nat.mul_le_mul_right _ hq
    _ = B ^ (k + (j + 1)) := (pow_add B k (j + 1)).symm

/-- `withLimb` replaces a digit in base 2^32. -/
theorem withLimb_eq (v j : Nat) (w : Word) :
    withLimb v j w = v % (2 ^ 32) ^ j + w.toNat * (2 ^ 32) ^ j + v / (2 ^ 32) ^ (j + 1) * (2 ^ 32) ^ (j + 1) := by
  unfold withLimb
  rw [pow_mul, pow_mul]

/-- Limb j' of a magnitude whose limb j was replaced. -/
theorem limb_withLimb (v j j' : Nat) (w : Word) :
    withLimb v j w / 2 ^ (32 * j') % 2 ^ 32 = if j' = j then w.toNat else v / 2 ^ (32 * j') % 2 ^ 32 := by
  rw [withLimb_eq, pow_mul]
  exact digit_replace (Nat.two_pow_pos 32) v j j' w.isLt

/-- Replacing limb j < n keeps a magnitude below 2^(32 n). -/
theorem withLimb_lt {v j n : Nat} (w : Word) (hj : j < n) (hv : v < 2 ^ (32 * n)) : withLimb v j w < 2 ^ (32 * n) := by
  rw [pow_mul] at hv ⊢
  rw [withLimb_eq]
  exact digit_replace_lt w.isLt hj hv

end Sys2Proof.Machine
end

