-- ==== Sys2Proof/Laws/Exec.lean ====
section
/-! SUPPORT. What each command can do: one inversion lemma for `exec`, to be cited instead of unfolding a meaning. -/

namespace Sys2Proof.Machine

/-- `Wrote i s u`: the checks of command i pass in s, and u is s with the writes of i (before the commit's own fields). -/
def Wrote : Instr → State → State → Prop
  | .mrtest n, s, u =>
    s.signBit n = false ∧
    u = { s with
      prime := (millerRabin s.params.mrRounds (s.mag n) s.random).1
      random := (millerRabin s.params.mrRounds (s.mag n) s.random).2 }
  | .genprime d b, s, u =>
    s.signBit b = false ∧ s.mag b < s.params.w ∧
    ∃ c, (searchPrime s.params.mrRounds (s.mag b) s.params.primeSearchLimit s.random).1 = some c ∧
      u = { s with
        random := (searchPrime s.params.mrRounds (s.mag b) s.params.primeSearchLimit s.random).2 }.setReg d c false
  | .egcd g x y a b, s, u =>
    (g ≠ x ∧ g ≠ y ∧ x ≠ y) ∧ s.signBit a = false ∧ s.signBit b = false ∧
    u = ((s.setReg g (egcd (s.mag a) (s.mag b)).1 false).writeXs x (egcd (s.mag a) (s.mag b)).2.1).writeXs y
      (egcd (s.mag a) (s.mag b)).2.2
  | .modinv d e phi, s, u =>
    s.signBit e = false ∧ s.signBit phi = false ∧ s.mag phi ≠ 0 ∧ (egcd (s.mag e) (s.mag phi)).1 = 1 ∧
    u = s.setReg d ((egcd (s.mag e) (s.mag phi)).2.1 % (s.mag phi : Int)).toNat false
  | .modexp d base exp mod, s, u =>
    s.signBit base = false ∧ s.signBit exp = false ∧ s.signBit mod = false ∧ s.mag mod ≠ 0 ∧
    u = s.setReg d (modExp (s.mag base) (s.mag exp) (s.mag mod)) false
  | .blksize d n, s, u => s.signBit n = false ∧ u = s.writeXs d (blockIntSize (s.mag n))
  | .encode d n len off, s, u =>
    s.signBit n = false ∧ s.signBit len = false ∧ s.signBit off = false ∧ s.mag len ≤ s.params.w / 8 ∧
    s.mag off + s.mag len ≤ s.params.bufBytes ∧ beInt (s.buf.readBytes (s.mag off) (s.mag len)) < s.mag n ∧
    u = s.setReg d (beInt (s.buf.readBytes (s.mag off) (s.mag len))) false
  | .decode d m off, s, u =>
    s.signBit m = false ∧ s.signBit off = false ∧ s.mag off + (beBytes (s.mag m)).length ≤ s.params.bufBytes ∧
    utf8WellFormed (beBytes (s.mag m)) = true ∧
    u = { s with buf := s.buf.writeBytes (s.mag off) (beBytes (s.mag m)) }.setReg d (beBytes (s.mag m)).length false

/-- `Raised i s r e`: command i ends in s with error e, and r is the random source after the draws it took. -/
def Raised : Instr → State → RandomSource → ErrorCode → Prop
  | .mrtest n, s, r, e => s.signBit n = true ∧ e = .domainError ∧ r = s.random
  | .genprime _ b, s, r, e =>
    ((s.signBit b = true ∨ s.params.w ≤ s.mag b) ∧ e = .domainError ∧ r = s.random) ∨
    (s.signBit b = false ∧ s.mag b < s.params.w ∧ e = .primeGenerationFailure ∧
      (searchPrime s.params.mrRounds (s.mag b) s.params.primeSearchLimit s.random).1 = none ∧
      r = (searchPrime s.params.mrRounds (s.mag b) s.params.primeSearchLimit s.random).2)
  | .egcd g x y a b, s, r, e =>
    r = s.random ∧
    ((¬(g ≠ x ∧ g ≠ y ∧ x ≠ y) ∧ e = .illegalCommand) ∨
      ((g ≠ x ∧ g ≠ y ∧ x ≠ y) ∧ (s.signBit a = true ∨ s.signBit b = true) ∧ e = .domainError))
  | .modinv _ e' phi, s, r, e =>
    r = s.random ∧
    (((s.signBit e' = true ∨ s.signBit phi = true ∨ s.mag phi = 0) ∧ e = .domainError) ∨
      (s.signBit e' = false ∧ s.signBit phi = false ∧ s.mag phi ≠ 0 ∧ (egcd (s.mag e') (s.mag phi)).1 ≠ 1 ∧
        e = .inverseNotFound))
  | .modexp _ base exp mod, s, r, e =>
    r = s.random ∧ e = .domainError ∧
    (s.signBit base = true ∨ s.signBit exp = true ∨ s.signBit mod = true ∨ s.mag mod = 0)
  | .blksize _ n, s, r, e => r = s.random ∧ e = .domainError ∧ s.signBit n = true
  | .encode _ n len off, s, r, e =>
    r = s.random ∧
    (((s.signBit n = true ∨ s.signBit len = true ∨ s.signBit off = true ∨ s.params.w / 8 < s.mag len ∨
        s.params.bufBytes < s.mag off + s.mag len) ∧ e = .domainError) ∨
      (s.signBit n = false ∧ s.signBit len = false ∧ s.signBit off = false ∧ s.mag len ≤ s.params.w / 8 ∧
        s.mag off + s.mag len ≤ s.params.bufBytes ∧ s.mag n ≤ beInt (s.buf.readBytes (s.mag off) (s.mag len)) ∧
        e = .blockTooLarge))
  | .decode _ m off, s, r, e =>
    r = s.random ∧
    (((s.signBit m = true ∨ s.signBit off = true ∨
        s.params.bufBytes < s.mag off + (beBytes (s.mag m)).length) ∧ e = .domainError) ∨
      (s.signBit m = false ∧ s.signBit off = false ∧ s.mag off + (beBytes (s.mag m)).length ≤ s.params.bufBytes ∧
        utf8WellFormed (beBytes (s.mag m)) = false ∧ e = .invalidUtf8))

/-- The shape of every meaning's case lemma. -/
def Outcomes (i : Instr) (s : State) (o : Host.Outcome State Fault Refusal) : Prop :=
  (∃ u, Wrote i s u ∧ o = .next (u.finish .ok)) ∨
  (∃ r e, Raised i s r e ∧ o = .next ({ s with random := r }.finish e))

theorem execMrtest_cases (n : Reg) (s : State) : Outcomes (.mrtest n) s (execMrtest n s) := by
  unfold execMrtest mrtest Outcomes Wrote Raised
  cases h : s.signBit n <;> simp [State.uarg_eq, h]

theorem execGenprime_cases (d b : Reg) (s : State) : Outcomes (.genprime d b) s (execGenprime d b s) := by
  unfold execGenprime genprimeExponent genprimeResult Outcomes Wrote Raised
  cases h : s.signBit b <;> simp [State.uarg_eq, h]
  rcases Nat.lt_or_ge (s.mag b) s.params.w with hw | hw
  · have hw' : ¬s.params.w ≤ s.mag b := by omega
    cases hs : (searchPrime s.params.mrRounds (s.mag b) s.params.primeSearchLimit s.random).1 <;> simp [hw, hw', hs]
  · have hw' : ¬s.mag b < s.params.w := by omega
    simp [hw, hw']

theorem execEgcd_cases (g x y a b : Reg) (s : State) : Outcomes (.egcd g x y a b) s (execEgcd g x y a b s) := by
  unfold execEgcd extendedGcd Outcomes Wrote Raised
  by_cases hd : g ≠ x ∧ g ≠ y ∧ x ≠ y
  · obtain ⟨h1, h2, h3⟩ := hd
    cases ha : s.signBit a <;> cases hb : s.signBit b <;> simp [State.uarg_eq, ha, hb, h1, h2, h3]
  · have : (decide (g = x) || decide (g = y) || decide (x = y)) = true := by
      by_contra hc; simp at hc; exact hd ⟨hc.1.1, hc.1.2, hc.2⟩
    simp only [this, raiseIf_true, Except.error_bind_eq, commit_error]
    exact .inr ⟨_, _, ⟨rfl, .inl ⟨hd, rfl⟩⟩, rfl⟩

theorem execModinv_cases (d e phi : Reg) (s : State) : Outcomes (.modinv d e phi) s (execModinv d e phi s) := by
  unfold execModinv modularInverse Outcomes Wrote Raised
  cases he : s.signBit e <;> cases hp : s.signBit phi <;> simp [State.uarg_eq, he, hp]
  by_cases h0 : s.mag phi = 0 <;> by_cases hg : (egcd (s.mag e) (s.mag phi)).1 = 1 <;> simp [h0, hg]

theorem execModexp_cases (d base exp mod : Reg) (s : State) :
    Outcomes (.modexp d base exp mod) s (execModexp d base exp mod s) := by
  unfold execModexp modexp Outcomes Wrote Raised
  cases hb : s.signBit base <;> cases he : s.signBit exp <;> cases hm : s.signBit mod <;>
    simp [State.uarg_eq, hb, he, hm]
  by_cases h0 : s.mag mod = 0 <;> simp [h0]

theorem execBlksize_cases (d n : Reg) (s : State) : Outcomes (.blksize d n) s (execBlksize d n s) := by
  unfold execBlksize blockSize Outcomes Wrote Raised
  cases h : s.signBit n <;> simp [State.uarg_eq, h]

theorem execEncode_cases (d n len off : Reg) (s : State) : Outcomes (.encode d n len off) s (execEncode d n len off s) := by
  unfold execEncode encodeBlock Outcomes Wrote Raised
  cases hn : s.signBit n <;> cases hl : s.signBit len <;> cases ho : s.signBit off <;>
    simp [State.uarg_eq, hn, hl, ho]
  rcases Nat.lt_or_ge (s.params.w / 8) (s.mag len) with h1 | h1
  · simp [h1, Nat.not_le.2 h1]
  rcases Nat.lt_or_ge s.params.bufBytes (s.mag off + s.mag len) with h2 | h2
  · simp [Nat.not_lt.2 h1, h1, h2, Nat.not_le.2 h2]
  rcases Nat.lt_or_ge (beInt (s.buf.readBytes (s.mag off) (s.mag len))) (s.mag n) with h3 | h3
  · simp [Nat.not_lt.2 h1, h1, Nat.not_lt.2 h2, h2, h3, Nat.not_le.2 h3]
  · simp [Nat.not_lt.2 h1, h1, Nat.not_lt.2 h2, h2, h3, Nat.not_lt.2 h3]

theorem execDecode_cases (d m off : Reg) (s : State) : Outcomes (.decode d m off) s (execDecode d m off s) := by
  unfold execDecode decodeBlock Outcomes Wrote Raised
  cases hm : s.signBit m <;> cases ho : s.signBit off <;> simp [State.uarg_eq, hm, ho]
  rcases Nat.lt_or_ge s.params.bufBytes (s.mag off + (beBytes (s.mag m)).length) with h1 | h1
  · simp [h1, Nat.not_le.2 h1]
  cases hu : utf8WellFormed (beBytes (s.mag m)) <;> simp [h1, Nat.not_lt.2 h1]

/-- What a command in flight can do at its commit: write its results and end with code 0, or raise an error and write
nothing. -/
theorem exec_cases (i : Instr) (s : State) : Outcomes i s (exec i s) := by
  cases i with
  | mrtest n => exact execMrtest_cases n s
  | genprime d b => exact execGenprime_cases d b s
  | egcd g x y a b => exact execEgcd_cases g x y a b s
  | modinv d e phi => exact execModinv_cases d e phi s
  | modexp d base exp mod => exact execModexp_cases d base exp mod s
  | blksize d n => exact execBlksize_cases d n s
  | encode d n len off => exact execEncode_cases d n len off s
  | decode d m off => exact execDecode_cases d m off s

end Sys2Proof.Machine
end

