-- ==== Sys2Proof/Laws/Numbers.lean ====
section
/-! SUPPORT. What the engines' number functions compute: the exponentiation loop, the recursion of EGCD, one round of the primality test, and the byte strings of the codec. -/

namespace Sys2Proof.Machine

/-! ## MODEXP's loop (43_modexp.md R141) -/

theorem modExpLoop_eq (M fuel r b e : Nat) (he : e < 2 ^ fuel) (hr : r % M = r) :
    modExpLoop M fuel r b e = r * b ^ e % M := by
  induction fuel generalizing r b e with
  | zero =>
    obtain rfl : e = 0 := by simpa using he
    simp [modExpLoop, hr]
  | succ n ih =>
    unfold modExpLoop
    split
    · next h => subst h; simp [hr]
    · next h =>
      rw [ih _ _ _ (by rw [pow_succ] at he; omega) (by split <;> simp [hr])]
      rcases Nat.mod_two_eq_zero_or_one e with h2 | h2
      · obtain ⟨k, rfl⟩ : ∃ k, e = 2 * k := ⟨e / 2, by omega⟩
        rw [if_neg (by omega), show 2 * k / 2 = k by omega, Nat.mul_mod, ← Nat.pow_mod, ← Nat.mul_mod, pow_mul, pow_two]
      · obtain ⟨k, rfl⟩ : ∃ k, e = 2 * k + 1 := ⟨e / 2, by omega⟩
        rw [if_pos h2, show (2 * k + 1) / 2 = k by omega, Nat.mul_mod, ← Nat.pow_mod, Nat.mod_mod, ← Nat.mul_mod,
          pow_succ, pow_mul, pow_two]
        congr 1; ring

/-- The loop computes the power modulo M (43_modexp.md R142 for the loop alone). -/
theorem modExp_eq_pow (B E M : Nat) : modExp B E M = B ^ E % M := by
  unfold modExp
  rw [modExpLoop_eq _ _ _ _ _ (lt_two_pow_bitlen E) (by simp), Nat.mul_mod, ← Nat.pow_mod, Nat.mod_mod,
    ← Nat.mul_mod, one_mul]

/-! ## EGCD's recursion (42_euclid.md R120) -/

theorem egcdLoop_fuel (f f' a b : Nat) (h : a < f) (h' : a < f') : egcdLoop f a b = egcdLoop f' a b := by
  induction f generalizing f' a b with
  | zero => omega
  | succ f ih =>
    cases f' with
    | zero => omega
    | succ f' =>
      unfold egcdLoop
      split
      · rfl
      · next h0 =>
        have := Nat.mod_lt b (Nat.pos_of_ne_zero h0)
        rw [ih f' (b % a) a (by omega) (by omega)]

theorem egcd_zero (b : Nat) : egcd 0 b = (b, 0, 1) := rfl

theorem egcd_of_ne_zero {a : Nat} (b : Nat) (h : a ≠ 0) :
    egcd a b = ((egcd (b % a) a).1, (egcd (b % a) a).2.2 - ((b / a : Nat) : Int) * (egcd (b % a) a).2.1,
      (egcd (b % a) a).2.1) := by
  conv_lhs => unfold egcd
  rw [egcdLoop, if_neg h]
  have := Nat.mod_lt b (Nat.pos_of_ne_zero h)
  rw [egcdLoop_fuel a (b % a + 1) _ _ this (by omega)]
  rfl

theorem egcd_gcd (a b : Nat) : (egcd a b).1 = Nat.gcd a b := by
  induction a using Nat.strong_induction_on generalizing b with
  | _ a ih =>
    by_cases h : a = 0
    · subst h; simp [egcd_zero]
    · rw [egcd_of_ne_zero b h, Nat.gcd_rec]; exact ih _ (Nat.mod_lt b (Nat.pos_of_ne_zero h)) a

/-! ## The primality test (41_primality.md R100) -/

/-- The odd part and the power of two that the test takes out of n − 1. -/
theorem splitTwos_spec {fuel m : Nat} (h0 : 0 < m) (h : m < 2 ^ fuel) :
    m = 2 ^ (splitTwos fuel m).1 * (splitTwos fuel m).2 ∧ (splitTwos fuel m).2 % 2 = 1 := by
  induction fuel generalizing m with
  | zero => simp only [pow_zero] at h; omega
  | succ f ih =>
    unfold splitTwos
    split
    · next h2 =>
      obtain ⟨e, ho⟩ := ih (m := m / 2) (by omega) (by rw [pow_succ] at h; omega)
      refine ⟨?_, ho⟩
      simp only [pow_succ]
      rw [mul_right_comm, ← e]; omega
    · next h2 => exact ⟨by simp, by simp only; omega⟩

theorem squaresToMinusOne_iff (n k x : Nat) :
    squaresToMinusOne n k x = true ↔ ∃ j < k, x ^ 2 ^ (j + 1) % n = n - 1 := by
  induction k generalizing x with
  | zero => simp [squaresToMinusOne]
  | succ k ih =>
    have e : ∀ j, (x * x % n) ^ 2 ^ (j + 1) % n = x ^ 2 ^ (j + 2) % n := by
      intro j
      rw [← Nat.pow_mod, ← pow_two, ← pow_mul, pow_succ' 2 (j + 1)]
    simp only [squaresToMinusOne, Bool.or_eq_true, beq_iff_eq, ih, e]
    constructor
    · rintro (h | ⟨j, hj, h⟩)
      · exact ⟨0, by omega, by simpa [pow_two] using h⟩
      · exact ⟨j + 1, by omega, h⟩
    · rintro ⟨j, hj, h⟩
      rcases j with - | j
      · exact .inl (by simpa [pow_two] using h)
      · exact .inr ⟨j, by omega, h⟩

/-- When a round passes. -/
theorem roundPasses_iff (n s d a : Nat) :
    roundPasses n s d a = true ↔
      a ^ d % n = 1 ∨ a ^ d % n = n - 1 ∨ ∃ j < s - 1, a ^ (2 ^ (j + 1) * d) % n = n - 1 := by
  have e : ∀ j, (a ^ d % n) ^ 2 ^ (j + 1) % n = a ^ (2 ^ (j + 1) * d) % n := by
    intro j; rw [← Nat.pow_mod, ← pow_mul, mul_comm d]
  simp only [roundPasses, Bool.or_eq_true, beq_iff_eq, squaresToMinusOne_iff, modExp_eq_pow, e, or_assoc]

theorem millerRabin_small {n : Nat} (rounds : Nat) (r : RandomSource) (h : n < 2) : millerRabin rounds n r = (false, r) := by
  simp [millerRabin, h]

theorem millerRabin_two_three {n : Nat} (rounds : Nat) (r : RandomSource) (h : n = 2 ∨ n = 3) :
    millerRabin rounds n r = (true, r) := by
  rcases h with rfl | rfl <;> simp [millerRabin]

theorem millerRabin_even {n : Nat} (rounds : Nat) (r : RandomSource) (h : 4 ≤ n) (h2 : n % 2 = 0) :
    millerRabin rounds n r = (false, r) := by
  unfold millerRabin
  rw [if_neg (by omega), if_neg (by omega), if_pos h2]

theorem millerRabin_odd {n : Nat} (rounds : Nat) (r : RandomSource) (h : 5 ≤ n) (h2 : n % 2 = 1) :
    ∃ s d, n - 1 = 2 ^ s * d ∧ d % 2 = 1 ∧ millerRabin rounds n r = mrRounds n s d rounds r := by
  obtain ⟨e, ho⟩ := splitTwos_spec (fuel := bitlen n) (m := n - 1) (by omega)
    (by have := lt_two_pow_bitlen n; omega)
  refine ⟨_, _, e, ho, ?_⟩
  unfold millerRabin
  rw [if_neg (by omega), if_neg (by omega), if_neg (by omega)]

/-! ## GENPRIME's search (41_primality.md R103) -/

/-- What the search can do: after k rejected candidates accept the next one, or reject all of them. -/
theorem searchPrime_cases (rounds b limit : Nat) (r : RandomSource) :
    ∃ k r', RejectsCandidates rounds b k r r' ∧
      ((k < limit ∧ (millerRabin rounds (r'.drawCandidate b).1 (r'.drawCandidate b).2).1 = true ∧
          searchPrime rounds b limit r =
            (some (r'.drawCandidate b).1, (millerRabin rounds (r'.drawCandidate b).1 (r'.drawCandidate b).2).2)) ∨
        (k = limit ∧ searchPrime rounds b limit r = (none, r'))) := by
  induction limit generalizing r with
  | zero => exact ⟨0, r, rfl, .inr ⟨rfl, rfl⟩⟩
  | succ limit ih =>
    cases hm : (millerRabin rounds (r.drawCandidate b).1 (r.drawCandidate b).2).1 with
    | true => exact ⟨0, r, rfl, .inl ⟨by omega, hm, by simp [searchPrime, hm]⟩⟩
    | false =>
      obtain ⟨k, r', hk, h⟩ := ih (millerRabin rounds (r.drawCandidate b).1 (r.drawCandidate b).2).2
      refine ⟨k + 1, r', ⟨hm, hk⟩, ?_⟩
      simpa [searchPrime, hm] using h

/-- Where a search of `limit` candidates finds none, all of them are rejected, and conversely. -/
theorem searchPrime_none_iff (rounds b limit : Nat) (r : RandomSource) :
    (searchPrime rounds b limit r).1 = none ↔ ∃ r', RejectsCandidates rounds b limit r r' := by
  induction limit generalizing r with
  | zero => simp [searchPrime, RejectsCandidates]
  | succ limit ih =>
    cases hm : (millerRabin rounds (r.drawCandidate b).1 (r.drawCandidate b).2).1 <;>
      simp [searchPrime, RejectsCandidates, hm, ih]

/-! ## Byte strings (44_block_codec.md R162) -/

theorem beInt_foldl (bs : List Byte) (acc : Nat) :
    bs.foldl (fun acc b => acc * 256 + b.toNat) acc = acc * 256 ^ bs.length + beInt bs := by
  induction bs generalizing acc with
  | nil => simp [beInt]
  | cons b bs ih =>
    unfold beInt
    simp only [List.foldl_cons, List.length_cons]
    rw [ih, ih (0 * 256 + _)]
    ring

@[simp] theorem beInt_nil : beInt [] = 0 := rfl

/-- The first byte is the most significant. -/
theorem beInt_cons (b : Byte) (bs : List Byte) : beInt (b :: bs) = b.toNat * 256 ^ bs.length + beInt bs := by
  unfold beInt
  rw [List.foldl_cons, beInt_foldl]
  simp [beInt]

theorem beInt_lt (bs : List Byte) : beInt bs < 256 ^ bs.length := by
  induction bs with
  | nil => simp
  | cons b bs ih =>
    rw [beInt_cons, List.length_cons, pow_succ]
    have := b.isLt
    nlinarith [Nat.mul_le_mul_right (256 ^ bs.length) (show b.toNat ≤ 255 by omega)]

@[simp] theorem length_beDigits (m n : Nat) : (beDigits m n).length = n := by
  induction n with
  | zero => rfl
  | succ n ih => simp [beDigits, ih]

@[simp] theorem length_beBytes (m : Nat) : (beBytes m).length = byteLength m := length_beDigits m _

end Sys2Proof.Machine
end

