-- ==== Sys2Proof/Laws/PerInstr.lean ====
section
/-! SUPPORT. What holds of every command as syntax, one lemma per constructor. -/

namespace Sys2Proof.Laws.OpcodeByte

/-- The opcode byte of a command (30_encoding.md R73). -/
def opcode : Instr → Nat
  | .mrtest _ => 0x01
  | .genprime _ _ => 0x02
  | .egcd _ _ _ _ _ => 0x03
  | .modinv _ _ _ => 0x04
  | .modexp _ _ _ _ => 0x05
  | .blksize _ _ => 0x06
  | .encode _ _ _ _ => 0x07
  | .decode _ _ _ => 0x08

/-- The lowest byte of a command's word is its opcode, and its reserved bits are 0 (30_encoding.md R71, R73). -/
def Statement (i : Instr) : Prop := (fieldOPC (encode i)).toNat = opcode i ∧ fieldRES (encode i) = 0

theorem mrtest (n : Reg) : Statement (.mrtest n) := by simp [Statement, encode, opcode]
theorem genprime (d b : Reg) : Statement (.genprime d b) := by simp [Statement, encode, opcode]
theorem egcd (g x y a b : Reg) : Statement (.egcd g x y a b) := by simp [Statement, encode, opcode]
theorem modinv (d e phi : Reg) : Statement (.modinv d e phi) := by simp [Statement, encode, opcode]
theorem modexp (d base exp mod : Reg) : Statement (.modexp d base exp mod) := by simp [Statement, encode, opcode]
theorem blksize (d n : Reg) : Statement (.blksize d n) := by simp [Statement, encode, opcode]
theorem encode (d n len off : Reg) : Statement (.encode d n len off) := by simp [Statement, Sys2Proof.encode, opcode]
theorem decode (d m off : Reg) : Statement (.decode d m off) := by simp [Statement, Sys2Proof.encode, opcode]

end Sys2Proof.Laws.OpcodeByte
end

