-- ==== Sys2Proof/Laws/Step.lean ====
section
/-! SUPPORT. What one step can do: the map of the register window region by region, and one inversion lemma for `step`. -/

namespace Sys2Proof.Machine

/-! ## The register window (20_memory.md R51) -/

theorem place_limb (p : Params) (off : BitVec 14) (i : Reg) {j : Nat} (hj : j < 128) (h : off.toNat = limbOffset i j) :
    place p off = if j < p.w / 32 then .limb i j else .reserved := by
  have hi : (i : Nat) < 8 := i.isLt
  unfold limbOffset at h
  have h1 : off.toNat % 0x200 / 4 = j := by omega
  have h2 : (off.toNat - 0x1000) / 0x200 = i := by omega
  have h3 : Fin.ofNat 8 ((off.toNat - 0x1000) / 0x200) = i := by
    rw [h2]; exact Fin.ext (Nat.mod_eq_of_lt hi)
  simp only [place]
  iterate 6 rw [if_neg (by omega)]
  rw [if_neg (by omega), if_pos (by omega), h1, h3]

theorem place_bufWord (p : Params) (off : BitVec 14) {k : Nat} (hk : k < 2048) (h : off.toNat = bufOffset k) :
    place p off = if k < p.bufBytes / 4 then .bufWord k else .reserved := by
  unfold bufOffset at h
  have h1 : (off.toNat - 0x2000) / 4 = k := by omega
  simp only [place]
  iterate 6 rw [if_neg (by omega)]
  rw [if_neg (by omega), if_neg (by omega), h1]

theorem place_low (p : Params) (off : BitVec 14) (h : 0x18 ≤ off.toNat) (h' : off.toNat < 0x1000) :
    place p off = .reserved := by
  simp only [place]
  iterate 6 rw [if_neg (by omega)]
  rw [if_pos h']

@[simp] theorem place_ctrl (p : Params) : place p 0x0000#14 = .ctrl := rfl
@[simp] theorem place_status (p : Params) : place p 0x0004#14 = .status := rfl
@[simp] theorem place_cmd (p : Params) : place p 0x0008#14 = .cmd := rfl
@[simp] theorem place_param0 (p : Params) : place p 0x000C#14 = .param0 := rfl
@[simp] theorem place_sign (p : Params) : place p 0x0010#14 = .sign := rfl
@[simp] theorem place_param1 (p : Params) : place p 0x0014#14 = .param1 := rfl

/-- Every aligned offset is one of the regions of the map. -/
theorem offset_cases (off : BitVec 14) (h : off.toNat % 4 = 0) :
    (off = 0x0000#14 ∨ off = 0x0004#14 ∨ off = 0x0008#14 ∨ off = 0x000C#14 ∨ off = 0x0010#14 ∨ off = 0x0014#14) ∨
    (0x18 ≤ off.toNat ∧ off.toNat < 0x1000) ∨ (∃ (i : Reg) (j : Nat), j < 128 ∧ off.toNat = limbOffset i j) ∨
    (∃ k, k < 2048 ∧ off.toNat = bufOffset k) := by
  have hlt : off.toNat < 2 ^ 14 := off.isLt
  by_cases h1 : off.toNat < 0x18
  · left
    have e : off.toNat = 0 ∨ off.toNat = 4 ∨ off.toNat = 8 ∨ off.toNat = 12 ∨ off.toNat = 16 ∨ off.toNat = 20 := by omega
    simpa [← BitVec.toNat_inj] using e
  right
  by_cases h2 : off.toNat < 0x1000
  · exact .inl ⟨by omega, h2⟩
  right
  by_cases h3 : off.toNat < 0x2000
  · refine .inl ⟨⟨(off.toNat - 0x1000) / 0x200, by omega⟩, off.toNat % 0x200 / 4, by omega, ?_⟩
    simp only [limbOffset]; omega
  · exact .inr ⟨(off.toNat - 0x2000) / 4, by omega, by simp only [bufOffset]; omega⟩

/-- The places whose words are operands (20_memory.md R59). -/
def Place.isOperand : Place → Bool
  | .cmd | .sign | .limb _ _ | .bufWord _ => true
  | .ctrl | .status | .param0 | .param1 | .reserved => false

theorem operandOffset_iff (p : Params) (off : BitVec 14) (h : off.toNat % 4 = 0) :
    OperandOffset p off.toNat ↔ (place p off).isOperand = true := by
  have key : ∀ a, a < 0x1000 → ((∃ i j, i < 8 ∧ j < p.w / 32 ∧ j < 128 ∧ a = limbOffset i j) ∨
      (∃ k, k < p.bufBytes / 4 ∧ k < 2048 ∧ a = bufOffset k)) → False := by
    rintro a ha (⟨i, j, -, -, -, e⟩ | ⟨k, -, -, e⟩) <;> simp only [limbOffset, bufOffset] at e <;> omega
  unfold OperandOffset
  rcases offset_cases off h with hc | ⟨h1, h2⟩ | ⟨i, j, hj, e⟩ | ⟨k, hk, e⟩
  · rcases hc with rfl | rfl | rfl | rfl | rfl | rfl
    · exact iff_of_false (by rintro (h | h | h); exacts [absurd h (by decide), absurd h (by decide), key _ (by decide) h])
        (by simp [Place.isOperand])
    · exact iff_of_false (by rintro (h | h | h); exacts [absurd h (by decide), absurd h (by decide), key _ (by decide) h])
        (by simp [Place.isOperand])
    · exact iff_of_true (.inl rfl) rfl
    · exact iff_of_false (by rintro (h | h | h); exacts [absurd h (by decide), absurd h (by decide), key _ (by decide) h])
        (by simp [Place.isOperand])
    · exact iff_of_true (.inr (.inl rfl)) rfl
    · exact iff_of_false (by rintro (h | h | h); exacts [absurd h (by decide), absurd h (by decide), key _ (by decide) h])
        (by simp [Place.isOperand])
  · rw [place_low p off h1 h2]
    exact iff_of_false (by rintro (h | h | h); exacts [by omega, by omega, key _ h2 h]) (by simp [Place.isOperand])
  · rw [place_limb p off i hj e]
    have hi : (i : Nat) < 8 := i.isLt
    split
    · next hw => exact iff_of_true (.inr (.inr (.inl ⟨i, j, hi, hw, hj, e⟩))) rfl
    · next hw =>
      refine iff_of_false ?_ (by simp [Place.isOperand])
      rintro (h | h | ⟨i', j', hi', hj', hj'', e'⟩ | ⟨k, _, _, e'⟩)
      all_goals simp only [limbOffset, bufOffset] at *
      all_goals omega
  · rw [place_bufWord p off hk e]
    split
    · next hw => exact iff_of_true (.inr (.inr (.inr ⟨k, hw, hk, e⟩))) rfl
    · next hw =>
      refine iff_of_false ?_ (by simp [Place.isOperand])
      rintro (h | h | ⟨i', j', hi', hj', hj'', e'⟩ | ⟨k, _, _, e'⟩)
      all_goals simp only [limbOffset, bufOffset] at *
      all_goals omega

/-! ## The step (10_state.md R20) -/

theorem step_nil {s : State} (h : s.agenda = []) : step s = engineStep s.afterTurn := by simp [step, h]

theorem step_engine {s : State} {rest : List Turn} (h : s.agenda = .engine :: rest) :
    step s = engineStep s.afterTurn := by simp [step, h]

theorem step_reset {s : State} {rest : List Turn} (h : s.agenda = .reset :: rest) :
    step s = .next s.afterTurn.powerOnReset := by simp [step, h]

theorem step_host {s : State} {a : Access} {rest : List Turn} (h : s.agenda = .host a :: rest) :
    step s = hostStep s.afterTurn a := by simp [step, h]

theorem hostStep_read {s : State} {off : BitVec 14} (h : off.toNat % 4 = 0) :
    hostStep s (.read .word off) = .next (s.hostRead (place s.params off)) := by
  simp [hostStep, h]

theorem hostStep_write {s : State} {off : BitVec 14} (v : Word) (h : off.toNat % 4 = 0) :
    hostStep s (.write .word off v) = .next (s.hostWrite v (place s.params off)) := by
  simp [hostStep, h]

/-- A host access answers a next state when it is aligned, and is refused otherwise. -/
theorem hostStep_cases (s : State) (a : Access) :
    (∃ off, a = .read .word off ∧ off.toNat % 4 = 0 ∧ hostStep s a = .next (s.hostRead (place s.params off))) ∨
    (∃ off v, a = .write .word off v ∧ off.toNat % 4 = 0 ∧ hostStep s a = .next (s.hostWrite v (place s.params off))) ∨
    (a.isAligned = false ∧ ∃ r, hostStep s a = .refused r) := by
  cases a with
  | read width off =>
    by_cases hw : width = .word
    · subst hw
      by_cases h : off.toNat % 4 = 0
      · exact .inl ⟨off, rfl, h, hostStep_read h⟩
      · exact .inr (.inr ⟨by simp [Access.isAligned, h], .misalignedAccess, by simp [hostStep, h]⟩)
    · exact .inr (.inr ⟨by simp [Access.isAligned, hw], .subWordAccess, by simp [hostStep, hw]⟩)
  | write width off v =>
    by_cases hw : width = .word
    · subst hw
      by_cases h : off.toNat % 4 = 0
      · exact .inr (.inl ⟨off, v, rfl, h, hostStep_write v h⟩)
      · exact .inr (.inr ⟨by simp [Access.isAligned, h], .misalignedAccess, by simp [hostStep, h]⟩)
    · exact .inr (.inr ⟨by simp [Access.isAligned, hw], .subWordAccess, by simp [hostStep, hw]⟩)

/-- The engine's turn while BUSY: the command of CMD, or IllegalCommand. -/
theorem engineStep_busy {s : State} (h : s.busy = true) :
    (∃ i, decode s.cmd = .ok i ∧ engineStep s = exec i s) ∨
    (∃ r, decode s.cmd = .error r ∧ engineStep s = .next (s.finish .illegalCommand)) := by
  unfold engineStep State.fetch
  rw [if_pos h]
  cases hd : decode s.cmd with
  | ok i => exact .inl ⟨i, rfl, rfl⟩
  | error r => exact .inr ⟨r, rfl, rfl⟩

theorem engineStep_idle {s : State} (h : s.busy = false) : engineStep s = .next s := by simp [engineStep, h]

/-- The next turn is the engine's. -/
def EngineTurn (s : State) : Prop := s.agenda = [] ∨ ∃ rest, s.agenda = .engine :: rest

/-- What an engine's turn can do: commit the command in flight, or nothing. -/
def EngineStepped (s t : State) : Prop :=
  (s.busy = true ∧
    ((∃ i, decode s.cmd = .ok i ∧ exec i s.afterTurn = .next t) ∨
      (∃ r, decode s.cmd = .error r ∧ t = s.afterTurn.finish .illegalCommand))) ∨
  (s.busy = false ∧ t = s.afterTurn)

theorem engineStep_cases {s t : State} (h : engineStep s.afterTurn = .next t) : EngineStepped s t := by
  cases hb : s.busy with
  | false =>
    rw [engineStep_idle (by simpa using hb)] at h
    injection h with h
    exact .inr ⟨hb, h.symm⟩
  | true =>
    refine .inl ⟨hb, ?_⟩
    rcases engineStep_busy (s := s.afterTurn) (by simpa using hb) with ⟨i, hd, e⟩ | ⟨r, hd, e⟩
    · exact .inl ⟨i, hd, e.symm.trans h⟩
    · rw [e] at h; injection h with h
      exact .inr ⟨r, hd, h.symm⟩

/-- Everything one step can do. -/
theorem step_cases {s t : State} (h : step s = .next t) :
    (EngineTurn s ∧ EngineStepped s t) ∨
    (∃ rest, s.agenda = .reset :: rest ∧ t = s.afterTurn.powerOnReset) ∨
    (∃ off rest, s.agenda = .host (.read .word off) :: rest ∧ off.toNat % 4 = 0 ∧
      t = s.afterTurn.hostRead (place s.params off)) ∨
    (∃ off v rest, s.agenda = .host (.write .word off v) :: rest ∧ off.toNat % 4 = 0 ∧
      t = s.afterTurn.hostWrite v (place s.params off)) := by
  rcases ha : s.agenda with - | ⟨turn, rest⟩
  · rw [step_nil ha] at h
    exact .inl ⟨.inl ha, engineStep_cases h⟩
  · cases turn with
    | host a =>
      rw [step_host ha] at h
      rcases hostStep_cases s.afterTurn a with ⟨off, rfl, ho, e⟩ | ⟨off, v, rfl, ho, e⟩ | ⟨-, r, e⟩
      · rw [e] at h; injection h with h
        exact .inr (.inr (.inl ⟨off, rest, rfl, ho, h.symm⟩))
      · rw [e] at h; injection h with h
        exact .inr (.inr (.inr ⟨off, v, rest, rfl, ho, h.symm⟩))
      · rw [e] at h; cases h
    | engine =>
      rw [step_engine ha] at h
      exact .inl ⟨.inr ⟨rest, ha⟩, engineStep_cases h⟩
    | reset =>
      rw [step_reset ha] at h
      injection h with h
      exact .inr (.inl ⟨rest, rfl, h.symm⟩)

end Sys2Proof.Machine
end

