-- ==== Sys2Proof/Tests/Slice0.lean ====
section
/-! SUPPORT. The model's own tests: expected results are those of spec/95_test_vectors.md or written out from the rules; and one witness for the hypotheses of each obligation. -/

open Sys2Proof Sys2Proof.Machine

namespace Sys2Proof.Tests

/-! ## Helpers -/

/-- The state after reset with these magnitudes in X0, X1, …, and this SIGN. -/
def withX (xs : List Nat) (sign : BitVec 8) : State :=
  { State.reset with x := Vector.ofFn fun i : Fin 8 => xs.getD i 0, sign := sign }

/-- … and these bytes in BUF from index 0 up. -/
def withBuf (s : State) (bytes : List Byte) : State := { s with buf := Memory.writeBytes [] 0 bytes }

/-- … and these answers of the random source to come. -/
def withDraws (s : State) (draws : List Nat) : State := { s with random := { answers := draws, drawn := 0 } }

/-- … and these turns to come. -/
def withTurns (s : State) (turns : List Turn) : State := { s with agenda := turns }

/-- … and this command word in flight. -/
def inFlight (s : State) (w : Word) : State := { s with busy := true, cmd := w }

/-- A host write of a word. -/
def hostWrites (off : BitVec 14) (v : Word) : Turn := .host (.write .word off v)

/-- A host read of a word. -/
def hostReads (off : BitVec 14) : Turn := .host (.read .word off)

/-- What one step leaves, seen through `f`. -/
def after {α : Type} (o : Host.Outcome State Fault Refusal) (f : State → α) : Option α :=
  match o with
  | .next t => some (f t)
  | .fault _ => none
  | .refused _ => none

/-- The commit of a command word in a state, seen through `f`. -/
def commits {α : Type} (s : State) (w : Nat) (f : State → α) : Option α := after (step (s.withFetchWord 32 w)) f

/-! ## WellFormed: the one check, with an ill-formed term for each clause (30_encoding.md R76) -/

theorem test_wellFormed_egcd_distinct : Instr.wellFormed (.egcd 4 5 6 0 1) = true := by decide
theorem test_wellFormed_refuses_g_eq_x : Instr.wellFormed (.egcd 2 2 3 0 1) = false := by decide
theorem test_wellFormed_refuses_g_eq_y : Instr.wellFormed (.egcd 2 3 2 0 1) = false := by decide
theorem test_wellFormed_refuses_x_eq_y : Instr.wellFormed (.egcd 3 2 2 0 1) = false := by decide

/-! ## Decoding: words of 95_test_vectors.md (programs P1 to P5, V-CTL), and words written out bit by bit from R71 -/

/-- `OPC | S0 << 17`: MRTEST x1 (P2). -/
theorem test_decode_mrtest : decode 0x00020001#32 = .ok (.mrtest 1) := by decide
/-- P4. -/
theorem test_decode_genprime : decode 0x00040102#32 = .ok (.genprime 1 2) := by decide
/-- P2. -/
theorem test_decode_egcd : decode 0x0027AC03#32 = .ok (.egcd 4 5 6 3 2) := by decide
/-- P2. -/
theorem test_decode_modinv : decode 0x00260704#32 = .ok (.modinv 7 3 2) := by decide
/-- P1. -/
theorem test_decode_modexp : decode 0x01560405#32 = .ok (.modexp 4 3 5 2) := by decide
/-- P3. -/
theorem test_decode_blksize : decode 0x00000106#32 = .ok (.blksize 1 0) := by decide
/-- P3. -/
theorem test_decode_encode : decode 0x01A00507#32 = .ok (.encode 5 0 2 3) := by decide
/-- P3. -/
theorem test_decode_decode : decode 0x003A0708#32 = .ok (.decode 7 5 3) := by decide

/-- RES, S2, S1, S0, D2, D1, D0, OPC in the order of the layout picture: DECODE x4, x3, x2. -/
theorem test_decode_bits :
    decode 0b000000_000_010_011_000_000_100_00001000#32 = .ok (.decode 4 3 2) := by decide

/-- V-CTL-2, V-CTL-4, V-CTL-3, V-CTL-5, V-EG-11. -/
theorem test_decode_rejects :
    decode 0x00000000#32 = .error .reservedOpcode ∧ decode 0x00000009#32 = .error .reservedOpcode ∧
      decode 0x04000005#32 = .error .reservedBits ∧ decode 0x00000101#32 = .error .unusedField ∧
      decode 0x0010D203#32 = .error .equalDestinations := by decide

/-- V-CTL-13, V-CTL-14. -/
theorem test_encode :
    encode (.modexp 3 0 1 2) = 0x01100305#32 ∧ encode (.egcd 4 5 6 0 1) = 0x0011AC03#32 := by decide

/-- The rows' own words: opcode alone, every field 0. -/
theorem test_decodeTableWord :
    decodeTableWord 32 0x01 = some (.mrtest 0) ∧ decodeTableWord 32 0x05 = some (.modexp 0 0 0 0) ∧
      decodeTableWord 32 0x08 = some (.decode 0 0 0) ∧ decodeTableWord 32 0x03 = none := by decide

/-! ## Commands, one step each -/

/-- V-MR-8: two strong liars. -/
theorem test_mrtest_accepts_561 :
    commits (withDraws (withX [561] 0) [50, 101]) 0x00000001 (fun t => (t.prime, t.err, t.random.drawn)) =
      some (true, .ok, 2) := by decide
/-- V-MR-9: one witness, one draw. -/
theorem test_mrtest_rejects_561 :
    commits (withDraws (withX [561] 0) [2, 50]) 0x00000001 (fun t => (t.prime, t.err, t.random.drawn)) =
      some (false, .ok, 1) := by decide

/-- V-GP-1. -/
theorem test_genprime_second_candidate :
    commits (withDraws (withX [0, 5] 0) [40, 37, 2, 3]) 0x00020202 (fun t => (t.mag 2, t.signBit 2, t.err)) =
      some (37, false, .ok) := by decide
/-- V-GP-4. -/
theorem test_genprime_fails :
    commits (withX [0, 0, 9] 0) 0x00020202 (fun t => (t.mag 2, t.err, t.random.drawn)) =
      some (9, .primeGenerationFailure, 4) := by decide

/-- V-EG-1, with the signed coefficient. -/
theorem test_egcd :
    commits (withX [17, 3120] 0) 0x0011AC03 (fun t => (t.val 4, t.val 5, t.val 6, t.sign)) =
      some (1, -367, 2, 0x20#8) := by decide
/-- V-EG-7 with sources that are also destinations: EGCD x0, x1, x2, x0, x1. -/
theorem test_egcd_in_place :
    commits (withX [12, 18] 0) 0x00108803 (fun t => (t.val 0, t.val 1, t.val 2)) = some (6, -1, 1) := by decide

/-- V-MI-1. -/
theorem test_modinv :
    commits (withX [17, 3120] 0) 0x00100204 (fun t => (t.mag 2, t.err)) = some (2753, .ok) := by decide
/-- V-MI-7. -/
theorem test_modinv_no_inverse :
    commits (withX [0, 7, 9] 0) 0x00100204 (fun t => (t.mag 2, t.err)) = some (9, .inverseNotFound) := by decide

/-- V-ME-12: operands of the full width. -/
theorem test_modexp :
    commits (withX [2 ^ 64 - 1, 2, 2 ^ 64 - 2] 0) 0x01100305 (fun t => (t.mag 3, t.err)) = some (1, .ok) := by decide
/-- V-ME-16: a negative base. -/
theorem test_modexp_negative :
    commits (withX [5, 3, 7, 9] 1) 0x01100305 (fun t => (t.mag 3, t.err)) = some (9, .domainError) := by decide

/-- V-BS-2: the one negative size. -/
theorem test_blksize_negative :
    commits (withX [127] 0) 0x00000106 (fun t => (t.mag 1, t.signBit 1, t.err)) = some (1, true, .ok) := by decide
/-- V-BS-6. -/
theorem test_blksize :
    commits (withX [32768] 0) 0x00000106 (fun t => (t.mag 1, t.signBit 1, t.err)) = some (1, false, .ok) := by decide

/-- V-ENC-4. -/
theorem test_encode_block :
    commits (withBuf (withX [18538, 2] 0) [0x48, 0x69]) 0x01100307 (fun t => (t.mag 3, t.err)) = some (18537, .ok) := by
  decide
/-- V-ENC-3: m = n. -/
theorem test_encode_too_large :
    commits (withBuf (withX [18537, 2] 0) [0x48, 0x69]) 0x01100307 (fun t => (t.mag 3, t.err)) =
      some (0, .blockTooLarge) := by decide

/-- V-DEC-10. -/
theorem test_decode_block :
    commits (withX [0, 0, 0, 0xE282AC] 0) 0x00260408 (fun t => (t.buf.readBytes 0 4, t.mag 4, t.err)) =
      some ([0xE2, 0x82, 0xAC, 0x00], 3, .ok) := by decide
/-- V-DEC-8: a surrogate. -/
theorem test_decode_surrogate :
    commits (withX [0, 0, 0, 0xEDA080] 0) 0x00260408 (fun t => (t.buf, t.mag 4, t.err)) =
      some ([], 0, .invalidUtf8) := by decide

/-- 44_block_codec.md R165: the ends of the table's ranges. -/
theorem test_utf8_ends :
    utf8WellFormed [0x7F, 0xC2, 0x80, 0xDF, 0xBF, 0xE0, 0xA0, 0x80, 0xED, 0x9F, 0xBF, 0xEF, 0xBF, 0xBF] = true ∧
      utf8WellFormed [0xF0, 0x90, 0x80, 0x80, 0xF4, 0x8F, 0xBF, 0xBF] = true ∧ utf8WellFormed [] = true ∧
      utf8WellFormed [0xC1, 0xBF] = false ∧ utf8WellFormed [0xE0, 0x9F, 0x80] = false ∧
      utf8WellFormed [0xF0, 0x8F, 0xBF, 0xBF] = false ∧ utf8WellFormed [0xF4, 0x90, 0x80, 0x80] = false ∧
      utf8WellFormed [0xF5, 0x80, 0x80, 0x80] = false ∧ utf8WellFormed [0x80] = false := by decide

/-! ## The window, resets and the interrupt -/

/-- V-CTL-2: the illegal opcode 0x00. -/
theorem test_illegal_status : commits State.reset 0x00000000 State.statusWord = some 0x00000702#32 := by decide

/-- V-CTL-7. -/
theorem test_status_write :
    after (hostStep { State.reset with done := true, ovr := true, err := .illegalCommand }
      (.write .word 0x0004#14 0x0000000A#32)) State.statusWord = some 0x00000700#32 := by decide

/-- V-CTL-9, and the level of V-CTL-8 before it. -/
theorem test_ie_raises_irq :
    State.irq { State.reset with done := true } = false ∧
      after (hostStep { State.reset with done := true } (.write .word 0x0000#14 0x00000001#32)) State.irq = some true := by
  decide

/-- V-CTL-10. -/
theorem test_abort :
    after (hostStep { inFlight State.reset 0x01100305#32 with ie := true } (.write .word 0x0000#14 0x00000003#32))
      (fun t => (t.statusWord, t.ctrlWord, t.cmd)) = some (0#32, 0#32, 0#32) := by decide

/-- V-CTL-12. -/
theorem test_params :
    after (hostStep State.reset (.read .word 0x000C#14)) (·.reads) = some [0x10201002#32] ∧
      after (hostStep State.reset (.read .word 0x0014#14)) (·.reads) = some [0x00000004#32] := by decide

/-- V-CTL-15. -/
theorem test_buf_word :
    after (hostStep State.reset (.write .word 0x2000#14 0x00006948#32)) (fun t => t.buf.readBytes 0 4) =
      some [0x48, 0x69, 0x00, 0x00] := by decide

/-- P5, both orders of its race: a write that comes before the commit is dropped, one after it lands. -/
theorem test_busy_hazard :
    after (run 2 (withTurns (inFlight (withX [3233, 2] 0) 0x00100305#32) [hostWrites 0x1200#14 7#32, .engine]))
        (fun t => (t.mag 1, t.mag 3, t.statusWord)) = some (2, 0, 0x0000000A#32) ∧
      after (run 2 (withTurns (inFlight (withX [3233, 2] 0) 0x00100305#32) [.engine, hostWrites 0x1200#14 7#32]))
        (fun t => (t.mag 1, t.mag 3, t.statusWord)) = some (7, 0, 0x00000002#32) := by decide

/-- 20_memory.md R56. -/
theorem test_refused_accesses :
    hostStep State.reset (.read .byte 0x1000#14) = .refused .subWordAccess ∧
      hostStep State.reset (.write .word 0x1002#14 0#32) = .refused .misalignedAccess := by
  constructor <;> rfl

/-! ## Witnesses: a concrete state and operands that meet the hypotheses of each obligation, clause by clause -/

/-- A legal state of the widest parameters. -/
def widest : State :=
  { State.reset with params := { w := 4096, bufBytes := 8192, mrRounds := 255, primeSearchLimit := 2 ^ 32 - 1 } }

theorem witness_DecodeOfEncode : Instr.wellFormed (.egcd 7 6 5 7 7) = true := by decide
theorem witness_EncodeOfDecode : decode 0x03FE0705#32 = .ok (.modexp 7 7 7 7) := by decide
theorem witness_RejectedWordsAreTheIllegalWords :
    (decode 0xFFFFFFFF#32 = .error .reservedOpcode ∧ IllegalWord 0xFFFFFFFF#32) ∧
      decode 0x00000001#32 = .ok (.mrtest 0) ∧ ¬IllegalWord 0x00000001#32 := by
  refine ⟨⟨by decide, .inr (.inl (by decide))⟩, by decide, ?_⟩
  unfold IllegalWord wordField
  decide
theorem witness_IllegalWordCommitsIllegalCommand :
    IllegalWord 0x0010D203#32 ∧ State.reset.busy = false ∧
      (withTurns State.reset [hostWrites 0x0008#14 0x0010D203#32, .engine]).agenda =
        .host (.write .word 0x0008#14 0x0010D203#32) :: .engine :: [] := by
  refine ⟨?_, rfl, rfl⟩
  unfold IllegalWord wordField
  decide

theorem witness_StepRunsDecodedCommand :
    (inFlight State.reset 0x01100305#32).busy = true ∧
      decode (inFlight State.reset 0x01100305#32).cmd = .ok (.modexp 3 0 1 2) ∧
      (inFlight State.reset 0x01100305#32).agenda = [] ∧
      (withTurns (inFlight State.reset 0x01100305#32) [.engine, .reset]).agenda = .engine :: [.reset] := by decide
theorem witness_CmdWriteIsDroppedOrAccepted :
    (withTurns State.reset [hostWrites 0x0008#14 0x06#32]).agenda = .host (.write .word 0x0008#14 0x06#32) :: [] ∧
      (withTurns State.reset [hostWrites 0x0008#14 0x06#32]).busy = false ∧
      (withTurns (inFlight State.reset 0x05#32) [hostWrites 0x0008#14 0x06#32]).busy = true := by decide
theorem witness_OnlyUnalignedAccessesAreRefused :
    (∃ r, step (withTurns State.reset [.host (.read .word 0x0002#14)]) = .refused r) ∧
      Access.isAligned (.read .word 0x0002#14) = false ∧
      (inFlight State.reset 0x06#32).busy = true ∧ (inFlight State.reset 0x06#32).agenda = [] := by
  exact ⟨⟨_, rfl⟩, by decide, by decide, by decide⟩
theorem witness_EveryRunEndsIdle :
    ∀ turn ∈ (withTurns State.reset [hostWrites 0x0008#14 0x06#32, .engine, hostReads 0x3FFC#14, .reset]).agenda,
      turn.isAligned = true := by decide

theorem witness_EveryCommandCommitsWithinItsFrame :
    (∀ d m off, Instr.blksize 0 0 ≠ .decode d m off) ∧ (∀ n, Instr.blksize 0 0 ≠ .mrtest n) ∧
      (∀ d b, Instr.blksize 0 0 ≠ .genprime d b) := by simp
theorem witness_FailedCommandWritesNothing :
    ∃ t, exec (.modexp 3 0 1 2) (withX [5, 3, 0, 9] 0) = .next t ∧ t.err ≠ .ok := ⟨_, rfl, by decide⟩
theorem witness_CommandsEndWithListedCodes :
    (∃ t, exec (.blksize 1 0) State.reset = .next t) ∧ Commits (inFlight State.reset 0x09#32) ∧
      IllegalWord (inFlight State.reset 0x09#32).cmd ∧ ∃ t, step (inFlight State.reset 0x09#32) = .next t := by
  exact ⟨⟨_, rfl⟩, ⟨rfl, .inl rfl⟩, .inr (.inl (by decide)), ⟨_, rfl⟩⟩
theorem witness_NegativeOperandIsDomainError :
    Instr.wellFormed (.decode 4 3 7) = true ∧ (7 : Reg) ∈ Instr.sources (.decode 4 3 7) ∧
      (withX [] 0x80).signBit 7 = true ∧ (withX [] 0x80).mag 7 = 0 := by decide
theorem witness_SignsWrittenByCommands :
    (∃ t, exec (.blksize 1 0) (withX [127] 0) = .next t ∧ t.signBit 1 = true) ∧
      (∃ t, exec (.blksize 1 0) (withX [127] 0x80) = .next t ∧ t.signBit 7 = true ∧ t.mag 7 = 0) ∧
      ∃ t, exec (.modinv 2 0 1) (withX [17, 3120] 0x80) = .next t ∧ t.signBit 7 = true := by
  exact ⟨⟨_, rfl, by decide⟩, ⟨_, rfl, by decide⟩, ⟨_, rfl, by decide⟩⟩
theorem witness_PrimeIsWrittenByMrtestOnly :
    (∃ t, step (inFlight (withX [2] 0) 0x01#32) = .next t ∧ t.prime ≠ (withX [2] 0).prime) ∧
      (∃ t, step (withTurns { State.reset with prime := true } [hostWrites 0x0000#14 2#32]) = .next t ∧ t.prime ≠ true) ∧
      State.reset.signBit 7 = false := by
  exact ⟨⟨_, rfl, by decide⟩, ⟨_, rfl, by decide⟩, by decide⟩

theorem inv_of_reset : State.reset.Inv :=
  ⟨by decide, by decide, by decide, by decide, by decide, by decide, by decide⟩
theorem witness_StepKeepsInvariant : State.reset.Inv ∧ ∃ t, step State.reset = .next t := ⟨inv_of_reset, _, rfl⟩
theorem witness_ResetMeetsInvariant :
    Config.vectorParams.Legal ∧ widest.params.Legal ∧
      (∀ i : Reg, (Vector.replicate 8 (2 ^ 64 - 1))[i] < 2 ^ Config.vectorParams.w) ∧
      Memory.wf [(63, 0x41#8)] ∧ Memory.below [(63, 0x41#8)] Config.vectorParams.bufBytes := by decide

/-- The events of Safety.lean: each happens in a state whose step answers a next state. -/
theorem witness_accepts :
    AcceptsCommand (withTurns State.reset [hostWrites 0x0008#14 0x06#32]) ∧
      ∃ t, step (withTurns State.reset [hostWrites 0x0008#14 0x06#32]) = .next t :=
  ⟨⟨rfl, _, _, rfl⟩, _, rfl⟩
theorem witness_commits :
    Commits (inFlight State.reset 0x06#32) ∧ Commits (withTurns (inFlight State.reset 0x06#32) [.engine]) ∧
      ∃ t, step (withTurns (inFlight State.reset 0x06#32) [.engine]) = .next t :=
  ⟨⟨rfl, .inl rfl⟩, ⟨rfl, .inr ⟨_, rfl⟩⟩, _, rfl⟩
theorem witness_resets :
    Resets (withTurns State.reset [.reset]) ∧ Resets (withTurns State.reset [hostWrites 0x0000#14 3#32]) ∧
      (∃ t, step (withTurns State.reset [.reset]) = .next t) ∧
      ∃ t, step (withTurns State.reset [hostWrites 0x0000#14 3#32]) = .next t :=
  ⟨.inl ⟨_, rfl⟩, .inr ⟨_, ⟨_, rfl⟩, by decide⟩, ⟨_, rfl⟩, _, rfl⟩
theorem witness_clears :
    ClearsStatusBit (withTurns State.reset [hostWrites 0x0004#14 0xA#32]) 1 ∧
      ClearsStatusBit (withTurns State.reset [hostWrites 0x0004#14 0xA#32]) 3 ∧
      ∃ t, step (withTurns State.reset [hostWrites 0x0004#14 0xA#32]) = .next t :=
  ⟨⟨_, ⟨_, rfl⟩, by decide⟩, ⟨_, ⟨_, rfl⟩, by decide⟩, _, rfl⟩
theorem witness_writes_operand_while_busy :
    WritesOperandWord (withTurns (inFlight State.reset 0x06#32) [hostWrites 0x0010#14 1#32]) ∧
      (withTurns (inFlight State.reset 0x06#32) [hostWrites 0x0010#14 1#32]).busy = true ∧
      ∃ t, step (withTurns (inFlight State.reset 0x06#32) [hostWrites 0x0010#14 1#32]) = .next t :=
  ⟨⟨_, _, ⟨_, rfl⟩, .inr (.inl rfl)⟩, rfl, _, rfl⟩

theorem witness_BusySetAndCleared :
    (∃ t, step (withTurns State.reset [hostWrites 0x0008#14 0x06#32]) = .next t ∧ t.busy = true) ∧
      ∃ t, step (inFlight State.reset 0x06#32) = .next t ∧ t.busy = false := ⟨⟨_, rfl, rfl⟩, _, rfl, rfl⟩
theorem witness_DoneSetAndCleared :
    (∃ t, step (inFlight State.reset 0x06#32) = .next t ∧ t.done = true) ∧
      ∃ t, step (withTurns { State.reset with done := true } [hostWrites 0x0004#14 2#32]) = .next t ∧ t.done = false :=
  ⟨⟨_, rfl, rfl⟩, _, rfl, rfl⟩
/-- The last used and the first unused word of BUF and limb of X0, all while BUSY, and a write of 1 to STATUS bit 3. -/
theorem witness_OvrSetAndCleared :
    (∃ t, step (withTurns (inFlight State.reset 0x06#32) [hostWrites 0x203C#14 1#32]) = .next t ∧ t.ovr = true) ∧
      (∃ t, step (withTurns (inFlight State.reset 0x06#32) [hostWrites 0x2040#14 1#32]) = .next t ∧ t.ovr = false) ∧
      (∃ t, step (withTurns (inFlight State.reset 0x06#32) [hostWrites 0x1004#14 1#32]) = .next t ∧ t.ovr = true) ∧
      (∃ t, step (withTurns (inFlight State.reset 0x06#32) [hostWrites 0x1008#14 1#32]) = .next t ∧ t.ovr = false) ∧
      ∃ t, step (withTurns { State.reset with ovr := true } [hostWrites 0x0004#14 8#32]) = .next t ∧ t.ovr = false :=
  ⟨⟨_, rfl, rfl⟩, ⟨_, rfl, rfl⟩, ⟨_, rfl, rfl⟩, ⟨_, rfl, rfl⟩, _, rfl, rfl⟩
theorem witness_ErrSetByAcceptanceCommitAndReset :
    (∃ t, step (withTurns { State.reset with err := .invalidUtf8 } [hostReads 0x0004#14]) = .next t ∧
        t.err = .invalidUtf8) ∧
      (∃ t, step (withTurns { State.reset with err := .invalidUtf8 } [.reset]) = .next t ∧ t.err = .ok) ∧
      (Commits (inFlight State.reset 0x00#32) ∧ IllegalWord (inFlight State.reset 0x00#32).cmd ∧
        ∃ t, step (inFlight State.reset 0x00#32) = .next t ∧ t.err = .illegalCommand) ∧
      (Commits (inFlight State.reset 0x04#32) ∧ decode 0x04#32 = .ok (.modinv 0 0 0) ∧
        ∃ t, step (inFlight State.reset 0x04#32) = .next t ∧ t.err = .domainError) ∧
      Commits (inFlight (withX [1] 0) 0x04#32) ∧
        ∃ t, step (inFlight (withX [1] 0) 0x04#32) = .next t ∧ t.err = .ok :=
  ⟨⟨_, rfl, rfl⟩, ⟨_, rfl, rfl⟩, ⟨⟨rfl, .inl rfl⟩, .inl rfl, _, rfl, rfl⟩,
    ⟨⟨rfl, .inl rfl⟩, by decide, _, rfl, by decide⟩, ⟨rfl, .inl rfl⟩, _, rfl, by decide⟩

/-- The checks of a command whose second and third check both fail: the second decides. -/
theorem test_firstFailing_order : FirstFailing (checks (withX [1, 0] 2) (.modinv 2 0 1)) .domainError := by
  right
  exact ⟨by decide, .inl ⟨by decide, rfl⟩⟩
theorem witness_CmdIeAndParametersChange :
    State.reset.busy = false ∧ HostWrites (withTurns State.reset [hostWrites 0x0008#14 9#32]) 0x0008#14 9#32 ∧
      Resets (withTurns State.reset [.reset]) ∧
      (withTurns (inFlight State.reset 0x06#32) [hostReads 0x0008#14]).agenda = .host (.read .word 0x0008#14) :: [] ∧
      ¬AcceptsCommand State.reset ∧ ¬Resets State.reset ∧ ∀ v, ¬HostWrites State.reset 0x0000#14 v := by
  refine ⟨rfl, ⟨_, rfl⟩, .inl ⟨_, rfl⟩, rfl, ?_, ?_, ?_⟩
  · rintro ⟨-, v, rest, h⟩; cases h
  · rintro (⟨rest, h⟩ | ⟨v, ⟨rest, h⟩, -⟩) <;> cases h
  · rintro v ⟨rest, h⟩; cases h
theorem witness_OperandsAreFrozenWhileBusy :
    (∃ t, step (withTurns (inFlight State.reset 0x06#32) [hostWrites 0x1000#14 1#32]) = .next t) ∧
      ¬Commits (withTurns (inFlight State.reset 0x06#32) [hostWrites 0x1000#14 1#32]) ∧
      ¬Resets (withTurns (inFlight State.reset 0x06#32) [hostWrites 0x1000#14 1#32]) := by
  refine ⟨⟨_, rfl⟩, ?_, ?_⟩
  · rintro ⟨-, h | ⟨rest, h⟩⟩ <;> cases h
  · rintro (⟨rest, h⟩ | ⟨v, ⟨rest, h⟩, -⟩) <;> cases h

theorem witness_ReadsHaveNoSideEffect :
    (withTurns (inFlight State.reset 0x06#32) [hostReads 0x3FFC#14]).agenda = .host (.read .word 0x3FFC#14) :: [] ∧
      (0x3FFC#14).toNat % 4 = 0 := by decide
/-- The last limb of X7, its first unused limb and its last unused limb, for W = 64. -/
theorem witness_LimbOfXRegister :
    State.reset.busy = false ∧
      ((0x1E04#14).toNat = limbOffset 7 1 ∧ 1 < State.reset.params.w / 32) ∧
      ((0x1E08#14).toNat = limbOffset 7 2 ∧ State.reset.params.w / 32 ≤ 2) ∧
      ((0x1FFC#14).toNat = limbOffset 7 127 ∧ State.reset.params.w / 32 ≤ 127) ∧
      127 < widest.params.w / 32 := by decide
/-- The last word of BUF, the first unused and the last unused word, for BUF_BYTES = 64. -/
theorem witness_WordOfBuf :
    State.reset.buf.wf ∧ State.reset.busy = false ∧
      ((0x203C#14).toNat = bufOffset 15 ∧ 15 < State.reset.params.bufBytes / 4) ∧
      ((0x2040#14).toNat = bufOffset 16 ∧ State.reset.params.bufBytes / 4 ≤ 16) ∧
      ((0x3FFC#14).toNat = bufOffset 2047 ∧ State.reset.params.bufBytes / 4 ≤ 2047) ∧
      2047 < widest.params.bufBytes / 4 := by decide
theorem witness_ReservedOffsetsReadZero :
    (inFlight State.reset 0x06#32).busy = true ∧
      ReservedOffset (inFlight State.reset 0x06#32).params (0x1008#14).toNat ∧
      ReservedOffset (inFlight State.reset 0x06#32).params (0x2040#14).toNat ∧ (0x1008#14).toNat % 4 = 0 ∧
      (0x2040#14).toNat % 4 = 0 ∧ ReservedOffset State.reset.params (0x0018#14).toNat ∧ ReservedOffset State.reset.params (0x0FFC#14).toNat ∧
      ReservedOffset State.reset.params (0x1008#14).toNat ∧ ReservedOffset State.reset.params (0x3FFC#14).toNat ∧
      (0x3FFC#14).toNat % 4 = 0 :=
  ⟨rfl, .inr (.inl ⟨0, 2, by decide⟩), .inr (.inr ⟨16, by decide⟩), by decide, by decide,
    .inl (by decide), .inl (by decide), .inr (.inl ⟨0, 2, by decide⟩), .inr (.inr ⟨2047, by decide⟩), by decide⟩
theorem witness_CtrlRegister : (1#32)[1] = false ∧ (3#32)[1] = true := by decide
theorem witness_SignRegister : State.reset.busy = false := rfl
theorem witness_ParameterRegisters : State.reset.params.Legal ∧ widest.params.Legal := by decide
theorem witness_SoftReset :
    (3#32)[1] = true ∧ State.reset.busy = false ∧ (inFlight State.reset 0x06#32).busy = true := by decide
theorem witness_PowerOnReset : (withTurns State.reset [.reset]).agenda = .reset :: [] := rfl
theorem witness_InterruptRaisedAndAcknowledged :
    (∃ t, step (inFlight { State.reset with ie := true } 0x06#32) = .next t ∧ t.irq = true) ∧
      (∃ t, step (withTurns { State.reset with done := true } [hostWrites 0x0000#14 1#32]) = .next t ∧ t.irq = true) ∧
      (∃ t, step (withTurns { State.reset with done := true, ie := true } [hostWrites 0x0000#14 0#32]) = .next t ∧
        t.irq = false) ∧
      ∃ t, step (withTurns { State.reset with done := true, ie := true } [hostWrites 0x0004#14 2#32]) = .next t ∧
        t.irq = false := ⟨⟨_, rfl, rfl⟩, ⟨_, rfl, rfl⟩, ⟨_, rfl, rfl⟩, _, rfl, rfl⟩
theorem witness_DrawsAreFreeInTheirRange :
    5 ≤ 5 ∧ (2 ≤ 3 ∧ 3 ≤ 5 - 2) ∧ (2 ^ 0 ≤ 1 ∧ 1 ≤ 2 ^ (0 + 1) - 1) := by decide

theorem witness_MrtestAcceptsEveryPrime :
    (withX [2 ^ 61 - 1, 1000003] 0).signBit 1 = false ∧ ((withX [2 ^ 61 - 1, 1000003] 0).mag 1).Prime := by
  refine ⟨by decide, ?_⟩
  change Nat.Prime 1000003
  norm_num
/-- n = 0, 1, 2, 3 and 4. -/
theorem witness_MrtestTrivialCases :
    (withX [0, 1, 2, 3, 4] 0).sign = 0#8 ∧ (withX [0, 1, 2, 3, 4] 0).mag 1 < 2 ∧ (withX [0, 1, 2, 3, 4] 0).mag 2 = 2 ∧
      (withX [0, 1, 2, 3, 4] 0).mag 3 = 3 ∧ 4 ≤ (withX [0, 1, 2, 3, 4] 0).mag 4 ∧
      (withX [0, 1, 2, 3, 4] 0).mag 4 % 2 = 0 := by decide
theorem witness_MrtestAcceptsWhenAllDrawsAreStrongLiars :
    (withX [5] 0).signBit 0 = false ∧ 5 ≤ (withX [5] 0).mag 0 ∧ (withX [5] 0).mag 0 % 2 = 1 ∧
      1 ≤ (withX [5] 0).params.mrRounds := by decide
theorem witness_MrtestMayAcceptOrReject561 :
    (withX [561] 0).signBit 0 = false ∧ (withX [561] 0).mag 0 = 561 ∧ 1 ≤ (withX [561] 0).params.mrRounds := by decide

/-- b = W − 1 meets the hypotheses; V-GP-1 rejects one candidate before it accepts, b = 0 (V-GP-4) rejects all four. -/
theorem witness_GenprimeOutcome :
    (withX [63] 0).signBit 0 = false ∧ (withX [63] 0).mag 0 < (withX [63] 0).params.w ∧
      RejectsCandidates 2 5 1 (withDraws (withX [0, 5] 0) [40, 37, 2, 3]).random { answers := [37, 2, 3], drawn := 1 } ∧
      RejectsCandidates 2 0 4 (withX [] 0).random { answers := [], drawn := 4 } := by
  refine ⟨by decide, by decide, ⟨by decide, rfl⟩, ?_⟩
  exact ⟨by decide, by decide, by decide, by decide, rfl⟩
theorem witness_GenprimeTakesAPrimeCandidate :
    (withX [5] 0).mag 0 < (withX [5] 0).params.w ∧ 1 ≤ (withX [5] 0).params.primeSearchLimit ∧
      ((withDraws (withX [5] 0) [37]).random.drawCandidate 5).1.Prime := by
  refine ⟨by decide, by decide, ?_⟩
  change Nat.Prime 37
  norm_num
/-- b = W, 0 and 1. -/
theorem witness_GenprimeCornerCases :
    (withX [64, 0, 1] 0).sign = 0#8 ∧ (withX [64, 0, 1] 0).params.Legal ∧
      (withX [64, 0, 1] 0).params.w ≤ (withX [64, 0, 1] 0).mag 0 ∧ (withX [64, 0, 1] 0).mag 1 = 0 ∧
      (withX [64, 0, 1] 0).mag 2 = 1 := by decide
/-- V-GP-7. -/
theorem witness_GenprimeFailsOnEvenCandidates :
    2 ≤ (withX [4] 0).mag 0 ∧ (withX [4] 0).mag 0 < (withX [4] 0).params.w ∧
      ∀ k < (withX [4] 0).params.primeSearchLimit,
        (withDraws (withX [4] 0) [16, 18, 20, 22]).random.upcoming (2 ^ 4) (2 ^ (4 + 1) - 1) k % 2 = 0 := by decide

/-- The recursion of R120 has a solution, and EGCD's registers may be equal to its sources. -/
theorem witness_EgcdWritesTheRecursionsTriple :
    (∀ b, egcd 0 b = (b, 0, 1)) ∧ (0 : Reg) ≠ 1 ∧ (0 : Reg) ≠ 2 ∧ (1 : Reg) ≠ 2 ∧
      (withX [12, 18] 0).signBit 0 = false ∧ (withX [12, 18] 0).signBit 1 = false :=
  ⟨fun _ => rfl, by decide⟩
theorem witness_EgcdGivesBezoutCoefficients :
    (4 : Reg) ≠ 5 ∧ (4 : Reg) ≠ 6 ∧ (5 : Reg) ≠ 6 ∧ (withX [0, 0] 0).signBit 0 = false := by decide
/-- phi = 1 and e = 0 (V-MI-4), and V-MI-1. -/
theorem witness_ModinvGivesTheInverse :
    (withX [0, 1] 0).mag 1 ≠ 0 ∧ Nat.gcd ((withX [0, 1] 0).mag 0) ((withX [0, 1] 0).mag 1) = 1 ∧
      Nat.gcd ((withX [17, 3120] 0).mag 0) ((withX [17, 3120] 0).mag 1) = 1 ∧ (withX [0, 1] 0).sign = 0#8 := by decide
theorem witness_ModinvErrors :
    (withX [3, 0] 0).sign = 0#8 ∧ (withX [3, 0] 0).mag 1 = 0 ∧ (withX [6, 9] 0).mag 1 ≠ 0 ∧
      Nat.gcd ((withX [6, 9] 0).mag 0) ((withX [6, 9] 0).mag 1) ≠ 1 := by decide

/-- M = 1, with exponent 0. -/
theorem witness_ModexpIsThePowerModuloM :
    (withX [0, 0, 1] 0).sign = 0#8 ∧ 1 ≤ (withX [0, 0, 1] 0).mag 2 := by decide
theorem witness_ModexpZeroModulusIsDomainError : (withX [5, 3, 0] 0).mag 2 = 0 := by decide
theorem witness_ModexpDependsOnItsOperandsOnly :
    ∀ r ∈ [(0 : Reg), 1, 2], (withX [65, 17, 3233, 1] 0).mag r = (withX [65, 17, 3233, 2] 8).mag r ∧
      (withX [65, 17, 3233, 1] 0).signBit r = (withX [65, 17, 3233, 2] 8).signBit r := by decide
/-- S1, S2. -/
theorem witness_RsaRoundTrip :
    (∀ r ∈ [(0 : Reg), 1, 5, 2], (withX [65, 17, 3233, 0, 0, 2753] 0).signBit r = false) ∧
      Nat.Prime 61 ∧ Nat.Prime 53 ∧ (withX [65, 17, 3233, 0, 0, 2753] 0).mag 2 = 61 * 53 ∧
      (withX [65, 17, 3233, 0, 0, 2753] 0).mag 0 < (withX [65, 17, 3233, 0, 0, 2753] 0).mag 2 ∧
      (withX [65, 17, 3233, 0, 0, 2753] 0).mag 1 * (withX [65, 17, 3233, 0, 0, 2753] 0).mag 5 ≡
        1 [MOD (61 - 1) * (53 - 1)] :=
  ⟨by decide, by norm_num, by norm_num, by decide, by decide, by decide⟩

/-- V-BS-2, V-BS-3, V-BS-5, V-BS-6: the ends of the first three sizes. -/
theorem witness_BlksizeGivesTheBlockSize :
    (withX [127, 128, 32767, 32768] 0).sign = 0#8 ∧ (withX [127, 128, 32767, 32768] 0).mag 0 < 128 ∧
      2 ^ (8 * 1 - 1) ≤ (withX [127, 128, 32767, 32768] 0).mag 1 ∧
      (withX [127, 128, 32767, 32768] 0).mag 2 < 2 ^ (8 * 1 + 7) ∧
      2 ^ (8 * 2 - 1) ≤ (withX [127, 128, 32767, 32768] 0).mag 3 := by decide
/-- V-ENC-5 (L = 0, n = 1), and L = W/8 at the end of BUF. -/
theorem witness_EncodeGivesTheBlockValue :
    (withX [1, 0, 64] 0).sign = 0#8 ∧
      (withX [1, 0, 64] 0).mag 2 + (withX [1, 0, 64] 0).mag 1 ≤ (withX [1, 0, 64] 0).params.bufBytes ∧
      (withX [1, 0, 64] 0).blockValue 64 0 < (withX [1, 0, 64] 0).mag 0 ∧
      (withX [1, 8, 56] 0).mag 1 ≤ (withX [1, 8, 56] 0).params.w / 8 ∧
      (withX [1, 8, 56] 0).mag 2 + (withX [1, 8, 56] 0).mag 1 ≤ (withX [1, 8, 56] 0).params.bufBytes ∧
      (withX [1, 8, 56] 0).blockValue 56 8 < (withX [1, 8, 56] 0).mag 0 := by decide
/-- V-ENC-9, off + L = 65, V-ENC-6. -/
theorem witness_EncodeErrors :
    (withX [1, 9] 0).sign = 0#8 ∧ (withX [1, 9] 0).params.w / 8 < (withX [1, 9] 0).mag 1 ∧
      (withX [1, 4, 61] 0).params.bufBytes < (withX [1, 4, 61] 0).mag 2 + (withX [1, 4, 61] 0).mag 1 ∧
      (withX [0, 0, 0] 0).mag 0 ≤ (withX [0, 0, 0] 0).blockValue 0 0 := by decide
/-- n = 128 and L = 0; n = 32768 and L = 1. -/
theorem witness_EncodeWithinTheBlockSizeSucceeds :
    (∃ u, exec (.blksize 4 0) (withX [128, 0] 0) = .next u ∧ ((withX [128, 0] 0).mag 1 : Int) ≤ u.val 4) ∧
      ∃ u, exec (.blksize 4 0) (withX [32768, 1] 0) = .next u ∧ ((withX [32768, 1] 0).mag 1 : Int) ≤ u.val 4 := by
  exact ⟨⟨_, rfl, by decide⟩, _, rfl, by decide⟩
/-- V-DEC-3 (m = 0 at the end of BUF) and V-DEC-11. -/
theorem witness_DecodeWritesTheBytes :
    State.reset.buf.wf ∧ (withX [0, 64] 0).sign = 0#8 ∧
      (IsByteCount 0 0 ∧ (withX [0, 64] 0).mag 1 + 0 ≤ (withX [0, 64] 0).params.bufBytes ∧
        utf8WellFormed (bigEndian 0 0) = true) ∧
      IsByteCount 0xF09F9880 4 ∧ utf8WellFormed (bigEndian 0xF09F9880 4) = true := by
  unfold IsByteCount
  decide
/-- V-DEC-13 and V-DEC-4. -/
theorem witness_DecodeErrors :
    (IsByteCount 0x4869 2 ∧ (withX [0x4869, 63] 0).params.bufBytes < (withX [0x4869, 63] 0).mag 1 + 2) ∧
      (IsByteCount 0xC3 1 ∧ (withX [0xC3, 0] 0).mag 1 + 1 ≤ (withX [0xC3, 0] 0).params.bufBytes ∧
        utf8WellFormed (bigEndian 0xC3 1) = false) := by
  unfold IsByteCount
  decide
/-- V-ENC-7: a leading 0x00. -/
theorem witness_CodecRoundTrip :
    ∃ t, exec (.encode 3 0 1 2) (withBuf (withX [3233, 2] 0) [0x00, 0x41]) = .next t ∧ t.err = .ok ∧
      (withBuf (withX [3233, 2] 0) [0x00, 0x41]).buf.wf ∧
      utf8WellFormed ((withBuf (withX [3233, 2] 0) [0x00, 0x41]).buf.readBytes 0 2) = true ∧
      (withBuf (withX [3233, 2] 0) [0x00, 0x41]).signBit 4 = false := ⟨_, rfl, by decide⟩

end Sys2Proof.Tests
end

section
/-! SUPPORT. Bounds of the numbers that commands write, and the byte strings of the claims as the codec computes them. -/

namespace Sys2Proof.Machine

/-! ### EGCD's coefficients (42_euclid.md R121) -/

/-- One call of the recursion keeps the bound on the first coefficient. -/
theorem egcd_step_le {a b : Nat} {x y : Int} (hx : x.natAbs ≤ a) (hy : y.natAbs ≤ b % a) :
    (y - ((b / a : Nat) : Int) * x).natAbs ≤ b :=
  calc (y - ((b / a : Nat) : Int) * x).natAbs
    _ ≤ y.natAbs + (b / a) * x.natAbs := by
      have h := Int.natAbs_sub_le y (((b / a : Nat) : Int) * x)
      rwa [Int.natAbs_mul, Int.natAbs_natCast] at h
    _ ≤ b % a + (b / a) * a := Nat.add_le_add hy (Nat.mul_le_mul_left _ hx)
    _ = b := by rw [Nat.mul_comm]; exact Nat.mod_add_div b a

/-- EGCD's coefficients are bounded by the other operand, or by 1. -/
theorem egcd_coefficients_le (a b : Nat) : (egcd a b).2.1.natAbs ≤ max 1 b ∧ (egcd a b).2.2.natAbs ≤ max 1 a := by
  induction a using Nat.strong_induction_on generalizing b with
  | _ a ih =>
    rcases Nat.eq_zero_or_pos a with rfl | ha
    · simp [egcd_zero]
    obtain ⟨hx, hy⟩ := ih (b % a) (Nat.mod_lt b ha) a
    rw [egcd_of_ne_zero b ha.ne']
    refine ⟨?_, hx⟩
    rcases Nat.eq_zero_or_pos (b % a) with h0 | h0
    · simp [h0, egcd_zero]
    · exact (egcd_step_le (by omega) (by omega)).trans (le_max_right 1 b)

/-- A common bound of the operands bounds the gcd. -/
theorem egcd_gcd_lt {a b n : Nat} (ha : a < n) (hb : b < n) : (egcd a b).1 < n := by
  rw [egcd_gcd]
  rcases Nat.eq_zero_or_pos a with rfl | h
  · simpa using hb
  · exact (Nat.gcd_le_left b h).trans_lt ha

/-! ### Draws and candidates (10_state.md R37) -/

/-- The range of a candidate draw is not empty. -/
theorem candidate_range (b : Nat) : 2 ^ b ≤ 2 ^ (b + 1) - 1 := by
  have := Nat.two_pow_pos b
  rw [pow_succ]
  omega

/-- A draw lies in its range. -/
theorem RandomSource.draw_mem (r : RandomSource) {lo hi : Nat} (h : lo ≤ hi) :
    lo ≤ (r.draw lo hi).1 ∧ (r.draw lo hi).1 ≤ hi :=
  have ⟨hlo, hhi, _⟩ := r.draw_spec h
  ⟨hlo, hhi⟩

/-- GENPRIME's search finds numbers of b + 1 bits. -/
theorem searchPrime_lt {rounds b limit c : Nat} {r : RandomSource} (h : (searchPrime rounds b limit r).1 = some c) :
    c < 2 ^ (b + 1) := by
  obtain ⟨k, r', -, ⟨-, -, e⟩ | ⟨-, e⟩⟩ := searchPrime_cases rounds b limit r
  · rw [e] at h
    injection h with h
    have hmem : (r'.drawCandidate b).1 ≤ 2 ^ (b + 1) - 1 := (r'.draw_mem (candidate_range b)).2
    have hpos := Nat.two_pow_pos (b + 1)
    omega
  · rw [e] at h; cases h

/-! ### BLKSIZE (44_block_codec.md R160) -/

/-- BLKSIZE's result fits a register, −1 included. -/
theorem blockIntSize_natAbs_lt {n w : Nat} (hw : 1 ≤ w) (h : n < 2 ^ w) : (blockIntSize n).natAbs < 2 ^ w := by
  have h1 : bitlen n ≤ w := (bitlen_le_iff n w).2 h
  have h2 : w < 2 ^ w := Nat.lt_two_pow_self
  unfold blockIntSize
  omega

/-! ### Byte counts and byte strings (44_block_codec.md R162) -/

theorem byteLength_le_iff (m l : Nat) : byteLength m ≤ l ↔ m < 256 ^ l := by
  rw [show (256 : Nat) ^ l = 2 ^ (8 * l) by rw [pow_mul]; rfl, ← bitlen_le_iff]
  unfold byteLength
  omega

/-- The number of big-endian bytes of a claim is the codec's. -/
theorem isByteCount_iff (m l : Nat) : IsByteCount m l ↔ l = byteLength m := by
  have hlow : l - 1 < byteLength m ↔ 256 ^ (l - 1) ≤ m := by
    simpa only [not_le, not_lt] using (byteLength_le_iff m (l - 1)).not
  unfold IsByteCount
  rw [← byteLength_le_iff, ← hlow]
  omega

theorem bigEndian_eq_beDigits (m l : Nat) : bigEndian m l = beDigits m l := by
  induction l with
  | zero => rfl
  | succ l ih =>
    rw [beDigits, ← ih]
    simp only [bigEndian, List.range_succ_eq_map, List.map_cons, List.map_map, Nat.shiftRight_eq_div_pow, pow_mul]
    congr 1
    exact List.map_congr_left fun i _ => by
      rw [Function.comp_apply, show l + 1 - 1 - i.succ = l - 1 - i by omega]

theorem beBytes_eq_bigEndian (m : Nat) : beBytes m = bigEndian m (byteLength m) := (bigEndian_eq_beDigits m _).symm

/-- The block value of a claim is the number that ENCODE computes. -/
theorem State.blockValue_eq_beInt (s : State) (off L : Nat) : s.blockValue off L = beInt (s.buf.readBytes off L) := by
  unfold State.blockValue
  induction L generalizing off with
  | zero => rfl
  | succ L ih =>
    rw [Finset.sum_range_succ', Memory.readBytes, beInt_cons, ← ih, Memory.length_readBytes, Nat.add_comm]
    congr 1
    refine Finset.sum_congr rfl fun i _ => ?_
    rw [show off + (i + 1) = off + 1 + i by omega, show L + 1 - 1 - (i + 1) = L - 1 - i by omega]

end Sys2Proof.Machine
end

section
/-! SUPPORT. Which words the decoder rejects. -/

namespace Sys2Proof

open Machine

/-- The fields that the clauses of 30_encoding.md R76 speak of, as the decoder reads them. -/
theorem wordField_eq (w : Word) :
    wordField w 8 = fieldD0 w ∧ wordField w 11 = fieldD1 w ∧ wordField w 14 = fieldD2 w ∧
      wordField w 20 = fieldS1 w ∧ wordField w 23 = fieldS2 w :=
  ⟨(fieldD0_val w).symm, (fieldD1_val w).symm, (fieldD2_val w).symm, (fieldS1_val w).symm, (fieldS2_val w).symm⟩

/-- The clauses of 30_encoding.md R76 on a packed word. -/
theorem illegalWord_packWord (s2 s1 s0 d2 d1 d0 : Reg) (opc : Byte) :
    IllegalWord (packWord s2 s1 s0 d2 d1 d0 opc) ↔
      opc.toNat = 0x00 ∨ 0x09 ≤ opc.toNat ∨
      (opc.toNat = 0x01 ∧ (d0 ≠ 0 ∨ d1 ≠ 0 ∨ d2 ≠ 0 ∨ s1 ≠ 0 ∨ s2 ≠ 0)) ∨
      (opc.toNat = 0x02 ∧ (d1 ≠ 0 ∨ d2 ≠ 0 ∨ s1 ≠ 0 ∨ s2 ≠ 0)) ∨
      (opc.toNat = 0x03 ∧ (s2 ≠ 0 ∨ d0 = d1 ∨ d0 = d2 ∨ d1 = d2)) ∨
      (opc.toNat = 0x04 ∧ (d1 ≠ 0 ∨ d2 ≠ 0 ∨ s2 ≠ 0)) ∨
      (opc.toNat = 0x05 ∧ (d1 ≠ 0 ∨ d2 ≠ 0)) ∨
      (opc.toNat = 0x06 ∧ (d1 ≠ 0 ∨ d2 ≠ 0 ∨ s1 ≠ 0 ∨ s2 ≠ 0)) ∨
      (opc.toNat = 0x07 ∧ (d1 ≠ 0 ∨ d2 ≠ 0)) ∨
      (opc.toNat = 0x08 ∧ (d1 ≠ 0 ∨ d2 ≠ 0 ∨ s2 ≠ 0)) := by
  have hres : (packWord s2 s1 s0 d2 d1 d0 opc).toNat / 2 ^ 26 = 0 := by rw [← fieldRES_toNat]; simp
  have hopc : (packWord s2 s1 s0 d2 d1 d0 opc).toNat % 256 = opc.toNat := by
    rw [show (256 : Nat) = 2 ^ 8 from rfl, ← fieldOPC_toNat]; simp
  obtain ⟨h0, h1, h2, h4, h5⟩ := wordField_eq (packWord s2 s1 s0 d2 d1 d0 opc)
  unfold IllegalWord
  simp only [h0, h1, h2, h4, h5, hres, hopc]
  simp [Fin.val_inj]

/-- The decoder rejects exactly the words that 30_encoding.md R76 calls illegal. -/
theorem rejected_iff_illegalWord (w : Word) : (∃ r, decode w = .error r) ↔ IllegalWord w := by
  by_cases hres : fieldRES w = 0
  · rw [← packWord_fields hres, illegalWord_packWord]
    generalize fieldOPC w = opc
    rcases opcode_cases opc with h | rfl | rfl | rfl | rfl | rfl | rfl | rfl | rfl
    · exact iff_of_true ⟨_, decode_reserved _ _ _ _ _ _ h⟩ (by tauto)
    · rw [decode_mrtest]; split <;> simp <;> tauto
    · rw [decode_genprime]; split <;> simp <;> tauto
    · rw [decode_egcd]
      split
      · split <;> simp <;> tauto
      · simp; tauto
    · rw [decode_modinv]; split <;> simp <;> tauto
    · rw [decode_modexp]; split <;> simp <;> tauto
    · rw [decode_blksize]; split <;> simp <;> tauto
    · rw [decode_encode]; split <;> simp <;> tauto
    · rw [decode_decode]; split <;> simp <;> tauto
  · refine iff_of_true (decode_of_fieldRES_ne hres) (.inr (.inr (.inl ?_)))
    rw [← fieldRES_toNat]
    exact fun h => hres (BitVec.eq_of_toNat_eq h)

theorem decodeRow_wellFormed {w mask mtch : Word} {i j : Instr} (h : decodeRow w mask mtch i = .ok j) :
    j.wellFormed = true := by
  unfold decodeRow at h
  split at h
  · cases h
  · split at h
    · cases h
    · split at h
      · injection h with h; subst h; assumption
      · cases h

/-- What the decoder answers is well formed. -/
theorem wellFormed_of_decode {w : Word} {i : Instr} (h : decode w = .ok i) : i.wellFormed = true := by
  unfold decode at h
  iterate 8
    split at h
    · exact decodeRow_wellFormed h
  cases h

end Sys2Proof
end

section
/-! SUPPORT. Each step is one event, and the event says what becomes of the parameters, CTRL, STATUS and CMD. -/

namespace Sys2Proof.Machine

/-- The control part of the state: the parameters, CTRL, STATUS and CMD. -/
structure Control where
  params : Params
  ie : Bool
  busy : Bool
  done : Bool
  prime : Bool
  ovr : Bool
  err : ErrorCode
  cmd : Word

/-- The control part of a state. -/
def State.control (s : State) : Control :=
  ⟨s.params, s.ie, s.busy, s.done, s.prime, s.ovr, s.err, s.cmd⟩

@[simp] theorem State.control_params (s : State) : s.control.params = s.params := rfl
@[simp] theorem State.control_ie (s : State) : s.control.ie = s.ie := rfl
@[simp] theorem State.control_busy (s : State) : s.control.busy = s.busy := rfl
@[simp] theorem State.control_done (s : State) : s.control.done = s.done := rfl
@[simp] theorem State.control_prime (s : State) : s.control.prime = s.prime := rfl
@[simp] theorem State.control_ovr (s : State) : s.control.ovr = s.ovr := rfl
@[simp] theorem State.control_err (s : State) : s.control.err = s.err := rfl
@[simp] theorem State.control_cmd (s : State) : s.control.cmd = s.cmd := rfl
@[simp] theorem State.control_afterTurn (s : State) : s.afterTurn.control = s.control := rfl

/-- What a step is for the control part of the state. -/
inductive Event where
  /-- The commit of the command in flight, which leaves this PRIME and this ERR (60_exceptions.md R204). -/
  | commit (prime : Bool) (err : ErrorCode)
  /-- A power-on reset or a soft reset (70_reset_and_hazards.md R231, R232). -/
  | reset
  /-- A write to CTRL with bit 1 = 0 (10_state.md R26). -/
  | writeCtrl (v : Word)
  /-- A write to STATUS (10_state.md R27). -/
  | writeStatus (v : Word)
  /-- The acceptance of a command word (60_exceptions.md R205). -/
  | accept (w : Word)
  /-- A write to CMD, SIGN, a limb or a word of BUF while BUSY (20_memory.md R59). -/
  | drop
  /-- Every other step. -/
  | silent

/-- What an event makes of the control part. -/
def Event.apply : Event → Control → Control
  | .commit p e, c => { c with busy := false, done := true, prime := p, err := e }
  | .reset, c =>
    { c with ie := false, busy := false, done := false, prime := false, ovr := false, err := .ok, cmd := 0x00000000#32 }
  | .writeCtrl v, c => { c with ie := v[0] }
  | .writeStatus v, c => { c with done := c.done && !v[1], ovr := c.ovr && !v[3] }
  | .accept w, c => { c with cmd := w, busy := true, done := false, err := .ok }
  | .drop, c => { c with ovr := true }
  | .silent, c => c

/-- The event of a host write of `v` to a place of the window, by BUSY. -/
def writeEvent (busy : Bool) (v : Word) : Place → Event
  | .ctrl => if v[1] then .reset else .writeCtrl v
  | .status => .writeStatus v
  | .cmd => if busy then .drop else .accept v
  | .sign | .limb _ _ | .bufWord _ => if busy then .drop else .silent
  | .param0 | .param1 | .reserved => .silent

theorem State.control_hostRead (s : State) (pl : Place) : (s.hostRead pl).control = s.control := by
  unfold State.hostRead
  split <;> rfl

theorem State.control_softReset (s : State) : s.softReset.control = Event.reset.apply s.control := by
  unfold State.softReset
  split <;> rfl

/-- A write to an operand word sets OVR while BUSY; idle it leaves the control part alone. -/
theorem State.control_unlessBusy {s u : State} (hu : u.control = s.control) :
    (s.unlessBusy u).control = (if s.busy then Event.drop else .silent).apply s.control := by
  unfold State.unlessBusy
  split
  · rfl
  · exact hu

/-- A host write changes the control part as its event says. -/
theorem State.control_hostWrite (s : State) (v : Word) (pl : Place) :
    (s.hostWrite v pl).control = (writeEvent s.busy v pl).apply s.control := by
  cases pl with
  | ctrl =>
    simp only [State.hostWrite, State.writeCtrl, writeEvent]
    split
    · exact s.control_softReset
    · rfl
  | cmd =>
    simp only [State.hostWrite, State.writeCmd, writeEvent]
    split <;> rfl
  | sign | limb _ _ | bufWord _ => exact State.control_unlessBusy rfl
  | status | param0 | param1 | reserved => rfl

/-- What a command's writes make of the control part: PRIME alone can change. -/
theorem Wrote.control {i : Instr} {s u : State} (h : Wrote i s u) : u.control = { s.control with prime := u.prime } := by
  cases i with
  | mrtest n => obtain ⟨-, rfl⟩ := h; rfl
  | genprime d b => obtain ⟨-, -, c, -, rfl⟩ := h; rfl
  | egcd g x y a b => obtain ⟨-, -, -, rfl⟩ := h; rfl
  | modinv d e phi => obtain ⟨-, -, -, -, rfl⟩ := h; rfl
  | modexp d base exp mod => obtain ⟨-, -, -, -, rfl⟩ := h; rfl
  | blksize d n => obtain ⟨-, rfl⟩ := h; rfl
  | encode d n len off => obtain ⟨-, -, -, -, -, -, rfl⟩ := h; rfl
  | decode d m off => obtain ⟨-, -, -, -, rfl⟩ := h; rfl

/-- What a commit can leave: the writes of the command with code 0, or the old state with the code of an error. -/
theorem exec_next_cases {i : Instr} {s t : State} (h : exec i s = .next t) :
    (∃ u, Wrote i s u ∧ t = u.finish .ok) ∨ (∃ r e, Raised i s r e ∧ t = { s with random := r }.finish e) := by
  rcases exec_cases i s with ⟨u, hu, e⟩ | ⟨r, e, hr, he⟩
  · rw [e] at h; injection h with h
    exact .inl ⟨u, hu, h.symm⟩
  · rw [he] at h; injection h with h
    exact .inr ⟨r, e, hr, h.symm⟩

theorem State.control_finish (s : State) (e : ErrorCode) :
    (s.finish e).control = (Event.commit s.prime e).apply s.control := rfl

theorem exec_control {i : Instr} {s t : State} (h : exec i s = .next t) :
    t.control = (Event.commit t.prime t.err).apply s.control := by
  rcases exec_next_cases h with ⟨u, hu, rfl⟩ | ⟨r, e, -, rfl⟩
  · rw [State.control_finish, hu.control]; rfl
  · rfl

/-- Event `e` is what the next step of `s` is, in the terms of the claims (10_state.md R26 to R33). -/
structure IsEvent (s : State) (e : Event) : Prop where
  commits : Commits s ↔ ∃ p c, e = .commit p c
  resets : Resets s ↔ e = .reset
  accepts : ∀ w, (s.busy = false ∧ HostWrites s 0x0008#14 w) ↔ e = .accept w
  clears : ∀ k, ClearsStatusBit s k ↔ ∃ v, e = .writeStatus v ∧ v.getLsbD k = true
  drops : (s.busy = true ∧ WritesOperandWord s) ↔ e = .drop
  writesCtrl : ∀ v, (HostWrites s 0x0000#14 v ∧ v[1] = false) ↔ e = .writeCtrl v

theorem IsEvent.acceptsCommand {s : State} {e : Event} (h : IsEvent s e) : AcceptsCommand s ↔ ∃ w, e = .accept w := by
  simp only [AcceptsCommand, ← h.accepts, exists_and_left]

/-! ### A turn that is no host write -/

theorem EngineTurn.not_hostWrites {s : State} (h : EngineTurn s) (off : BitVec 14) (v : Word) : ¬HostWrites s off v := by
  rcases h with ha | ⟨rest, ha⟩ <;> simp [HostWrites, ha]

theorem EngineTurn.not_resets {s : State} (h : EngineTurn s) : ¬Resets s := by
  rintro (⟨rest, hr⟩ | ⟨v, hw, -⟩)
  · rcases h with ha | ⟨rest', ha⟩ <;> simp [ha] at hr
  · exact h.not_hostWrites _ v hw

theorem isEvent_commit {s : State} (h : Commits s) (p : Bool) (c : ErrorCode) : IsEvent s (.commit p c) := by
  have hturn : EngineTurn s := h.2
  constructor <;> simp [h, hturn.not_resets, hturn.not_hostWrites, ClearsStatusBit, WritesOperandWord]

theorem isEvent_silent_of_engineTurn {s : State} (h : EngineTurn s) (hb : s.busy = false) : IsEvent s .silent := by
  constructor <;> simp [hb, Commits, h.not_resets, h.not_hostWrites, ClearsStatusBit]

theorem isEvent_reset {s : State} {rest : List Turn} (ha : s.agenda = .reset :: rest) : IsEvent s .reset := by
  constructor <;> simp [Commits, Resets, HostWrites, ClearsStatusBit, WritesOperandWord, ha]

theorem isEvent_read {s : State} {off : BitVec 14} {width : Width} {rest : List Turn}
    (ha : s.agenda = .host (.read width off) :: rest) : IsEvent s .silent := by
  constructor <;> simp [Commits, Resets, HostWrites, ClearsStatusBit, WritesOperandWord, ha]

/-! ### A host write -/

theorem hostWrites_iff {s : State} {off : BitVec 14} {v : Word} {rest : List Turn}
    (h : s.agenda = .host (.write .word off v) :: rest) (off' : BitVec 14) (v' : Word) :
    HostWrites s off' v' ↔ off = off' ∧ v = v' := by
  simp [HostWrites, h]

/-- The place of an aligned offset is CTRL, STATUS or CMD only at that register's own offset. -/
theorem place_control_iff (p : Params) (off : BitVec 14) (h : off.toNat % 4 = 0) :
    (off = 0x0000#14 ↔ place p off = .ctrl) ∧ (off = 0x0004#14 ↔ place p off = .status) ∧
      (off = 0x0008#14 ↔ place p off = .cmd) := by
  simp only [place, ← BitVec.toNat_inj]
  repeat' split
  all_goals simp; omega

/-- The event of a write, from the place that it addresses. -/
theorem isEvent_of_place {s : State} {off : BitVec 14} {v : Word} {rest : List Turn} {e : Event} {pl : Place}
    (ha : s.agenda = .host (.write .word off v) :: rest) (ho : off.toNat % 4 = 0) (hp : place s.params off = pl)
    (commits : ∀ p c, e ≠ .commit p c)
    (resets : (pl = .ctrl ∧ v[1] = true) ↔ e = .reset)
    (accepts : ∀ w, (s.busy = false ∧ pl = .cmd ∧ v = w) ↔ e = .accept w)
    (clears : ∀ w, (pl = .status ∧ v = w) ↔ e = .writeStatus w)
    (drops : (s.busy = true ∧ pl.isOperand = true) ↔ e = .drop)
    (writesCtrl : ∀ w, (v[1] = false ∧ pl = .ctrl ∧ v = w) ↔ e = .writeCtrl w) : IsEvent s e := by
  subst hp
  obtain ⟨hctrl, hstatus, hcmd⟩ := place_control_iff s.params off ho
  simp only [← hctrl, ← hstatus, ← hcmd, ← operandOffset_iff _ _ ho] at resets accepts clears drops writesCtrl
  exact {
    commits := by simp [Commits, ha, commits]
    resets := by simp [Resets, hostWrites_iff ha, ha, ← resets]
    accepts := fun w => by rw [hostWrites_iff ha, accepts]
    clears := fun k => by simp only [ClearsStatusBit, hostWrites_iff ha, clears]
    drops := by simp [WritesOperandWord, hostWrites_iff ha, ← drops]
    writesCtrl := fun w => by
      rw [hostWrites_iff ha, ← writesCtrl, and_comm]
      exact and_congr_left fun ⟨_, e⟩ => by rw [e] }

theorem isEvent_write {s : State} {off : BitVec 14} {v : Word} {rest : List Turn}
    (ha : s.agenda = .host (.write .word off v) :: rest) (ho : off.toNat % 4 = 0) :
    IsEvent s (writeEvent s.busy v (place s.params off)) := by
  cases hp : place s.params off with
  | ctrl =>
    cases hv : v[1] <;> apply isEvent_of_place ha ho hp <;> simp [writeEvent, Place.isOperand, hv]
  | cmd | sign | limb _ _ | bufWord _ =>
    cases hb : s.busy <;> apply isEvent_of_place ha ho hp <;> simp [writeEvent, Place.isOperand, hb]
  | status | param0 | param1 | reserved =>
    apply isEvent_of_place ha ho hp <;> simp [writeEvent, Place.isOperand]

/-- Every step is one event, and it changes the control part as that event says. -/
theorem step_event {s t : State} (h : step s = .next t) : ∃ e, IsEvent s e ∧ t.control = e.apply s.control := by
  rcases step_cases h with
    ⟨he, ⟨hb, hc⟩ | ⟨hb, rfl⟩⟩ | ⟨rest, ha, rfl⟩ | ⟨off, rest, ha, ho, rfl⟩ | ⟨off, v, rest, ha, ho, rfl⟩
  · refine ⟨.commit t.prime t.err, isEvent_commit ⟨hb, he⟩ _ _, ?_⟩
    rcases hc with ⟨i, -, hx⟩ | ⟨r, -, rfl⟩
    · exact exec_control (s := s.afterTurn) hx
    · rfl
  · exact ⟨.silent, isEvent_silent_of_engineTurn he hb, rfl⟩
  · exact ⟨.reset, isEvent_reset ha, rfl⟩
  · exact ⟨.silent, isEvent_read ha, s.afterTurn.control_hostRead _⟩
  · exact ⟨_, isEvent_write ha ho, s.afterTurn.control_hostWrite v _⟩

/-- Settles O18, event by event: only an acceptance sets BUSY. -/
theorem busySetAndCleared : Obligations.BusySetAndCleared := by
  intro s t h
  obtain ⟨e, he, ht⟩ := step_event h
  rw [he.acceptsCommand, he.commits, he.resets, ← State.control_busy t, ht]
  cases e <;> simp [Event.apply]

/-- Settles O19, event by event: only a commit sets DONE. -/
theorem doneSetAndCleared : Obligations.DoneSetAndCleared := by
  intro s t h
  obtain ⟨e, he, ht⟩ := step_event h
  rw [he.acceptsCommand, he.commits, he.resets, he.clears, ← State.control_done t, ht]
  cases e <;> simp [Event.apply]

/-- Settles O20, event by event: only a dropped write sets OVR. -/
theorem ovrSetAndCleared : Obligations.OvrSetAndCleared := by
  intro s t h
  obtain ⟨e, he, ht⟩ := step_event h
  rw [he.drops, he.clears, he.resets, ← State.control_ovr t, ht]
  cases e <;> simp [Event.apply]

end Sys2Proof.Machine
end

section
/-! SUPPORT. The control registers and the random source as the host sees them. -/

namespace Sys2Proof.Machine

/-! ### The words of the registers as numbers -/

/-- STATUS as the sum of its fields (10_state.md R27). -/
theorem statusWord_toNat (s : State) :
    s.statusWord.toNat = s.busy.toNat + 2 * s.done.toNat + 4 * s.prime.toNat + 8 * s.ovr.toNat +
      256 * s.err.number.toNat := by
  have hb := s.busy.toNat_lt
  have hd := s.done.toNat_lt
  have hp := s.prime.toNat_lt
  have ho := s.ovr.toNat_lt
  unfold State.statusWord
  simp only [BitVec.toNat_append, BitVec.toNat_ofBool, BitVec.toNat_ofNat, Nat.zero_mod]
  iterate 6 rw [← Nat.shiftLeft_add_eq_or_of_lt (by omega)]
  simp only [Nat.shiftLeft_eq, Nat.zero_mul, Nat.zero_add]
  ring

theorem statusWord_eq_zero {s : State} (hb : s.busy = false) (hd : s.done = false) (hp : s.prime = false)
    (ho : s.ovr = false) (he : s.err = .ok) : s.statusWord = 0#32 :=
  BitVec.eq_of_toNat_eq (by rw [statusWord_toNat, hb, hd, hp, ho, he]; rfl)

theorem ctrlWord_toNat (s : State) : s.ctrlWord.toNat = s.ie.toNat := by
  unfold State.ctrlWord
  rw [BitVec.toNat_append]
  simp

theorem signWord_toNat (s : State) : s.signWord.toNat = s.sign.toNat := by
  unfold State.signWord
  rw [BitVec.toNat_append]
  simp

/-- PARAM0 as the sum of its fields, where each parameter fits its field (10_state.md R34). -/
theorem param0Word_toNat {s : State} (h : s.params.Legal) :
    s.param0Word.toNat = s.params.w / 32 + 2 ^ 8 * (s.params.bufBytes / 4) + 2 ^ 20 * s.params.mrRounds + 2 ^ 28 := by
  obtain ⟨⟨-, -, hw⟩, ⟨-, -, hb⟩, ⟨-, hr⟩, -⟩ := h
  have hw' : s.params.w / 32 < 2 ^ 8 := by omega
  have hb' : s.params.bufBytes / 4 < 2 ^ 12 := by omega
  have hr' : s.params.mrRounds < 2 ^ 8 := by omega
  unfold State.param0Word
  simp only [BitVec.toNat_append, BitVec.toNat_ofNat, Nat.mod_eq_of_lt hw', Nat.mod_eq_of_lt hb', Nat.mod_eq_of_lt hr']
  rw [← Nat.shiftLeft_add_eq_or_of_lt hw', ← Nat.shiftLeft_add_eq_or_of_lt hb', ← Nat.shiftLeft_add_eq_or_of_lt hr']
  simp only [Nat.shiftLeft_eq]
  omega

theorem param1Word_toNat {s : State} (h : s.params.Legal) : s.param1Word.toNat = s.params.primeSearchLimit := by
  obtain ⟨-, -, -, -, hl⟩ := h
  exact Nat.mod_eq_of_lt (by omega)

/-! ### Reads and writes -/

/-- A read that R59 does not leave open returns the word of its place. -/
theorem State.hostRead_of_visible {s : State} {pl : Place} (h : s.busy = false ∨ pl.hiddenWhileBusy = false) :
    s.hostRead pl = { s with reads := s.readPlace pl :: s.reads } := by
  unfold State.hostRead
  rw [if_neg (by rcases h with h | h <;> simp [h])]

/-- Settles O28: STATUS is the sum of its fields. -/
theorem statusRegister : Obligations.StatusRegister := by
  refine ⟨fun s v => ⟨⟨s.statusWord, ?_, statusWord_toNat s⟩, ?_⟩, fun p x g m r =>
    statusWord_eq_zero rfl rfl rfl rfl rfl⟩
  · rw [hostStep_read (by decide), place_status, State.hostRead_of_visible (.inr rfl)]
    rfl
  · rw [hostStep_write v (by decide), place_status]
    simp only [State.hostWrite, State.writeStatus]
    cases v[1] <;> cases v[3] <;> simp

/-- A soft reset clears CTRL, STATUS and CMD, idle or busy (70_reset_and_hazards.md R232). -/
theorem State.softReset_control_words (s : State) :
    s.softReset.ie = false ∧ s.softReset.statusWord = 0#32 ∧ s.softReset.cmd = 0#32 := by
  unfold State.softReset
  split <;> exact ⟨rfl, statusWord_eq_zero rfl rfl rfl rfl rfl, rfl⟩

/-- Settles O29: both forms of a write are the branches of `writeCtrl`. -/
theorem ctrlRegister : Obligations.CtrlRegister := by
  refine ⟨fun s v => ⟨⟨s.ctrlWord, ?_, ctrlWord_toNat s⟩, fun hv => ?_, fun hv => ?_⟩, fun p x g m r =>
    BitVec.eq_of_toNat_eq (ctrlWord_toNat _)⟩
  · rw [hostStep_read (by decide), place_ctrl, State.hostRead_of_visible (.inr rfl)]
    rfl
  · rw [hostStep_write v (by decide), place_ctrl]
    simp [State.hostWrite, State.writeCtrl, hv]
  · refine ⟨s.softReset, ?_, s.softReset_control_words⟩
    rw [hostStep_write v (by decide), place_ctrl]
    simp [State.hostWrite, State.writeCtrl, hv]

/-- Settles O30: SIGN and the bits of the written word. -/
theorem signRegister : Obligations.SignRegister := by
  intro s v hb
  refine ⟨⟨s.signWord, ?_, signWord_toNat s⟩, { s with sign := v.extractLsb' 0 8 }, ?_, rfl, ?_⟩
  · rw [hostStep_read (by decide), place_sign, State.hostRead_of_visible (.inl hb)]
    rfl
  · rw [hostStep_write v (by decide), place_sign]
    simp [State.hostWrite, State.unlessBusy, hb]
  · have hsign : ∀ i : Reg, State.signBit { s with sign := v.extractLsb' 0 8 } i = v.getLsbD i := by
      intro i
      simp [State.signBit]
    refine ⟨hsign, fun i => ?_⟩
    rw [State.val, hsign]
    cases v.getLsbD i <;> simp [State.mag]

/-- Settles O31: every legal parameter fits its field. -/
theorem parameterRegisters : Obligations.ParameterRegisters := by
  intro s v h
  have h0 := param0Word_toNat h
  obtain ⟨⟨-, -, hw⟩, ⟨-, -, hb⟩, ⟨-, hr⟩, -⟩ := id h
  refine ⟨⟨s.param0Word, ?_, by omega, by omega, by omega, by omega⟩, ⟨s.param1Word, ?_, param1Word_toNat h⟩, ?_, ?_⟩
  · rw [hostStep_read (by decide), place_param0, State.hostRead_of_visible (.inr rfl)]
    rfl
  · rw [hostStep_read (by decide), place_param1, State.hostRead_of_visible (.inr rfl)]
    rfl
  · rw [hostStep_write v (by decide), place_param0]
    rfl
  · rw [hostStep_write v (by decide), place_param1]
    rfl

/-! ### Draws (10_state.md R37) -/

/-- Every value of the range is the answer of some source. -/
theorem RandomSource.exists_draw_eq {lo hi v : Nat} (h : lo ≤ v) (h' : v ≤ hi) :
    ∃ r : RandomSource, (r.draw lo hi).1 = v :=
  ⟨{ answers := [v], drawn := 0 }, by rw [RandomSource.draw_listed [] 0 h h']⟩

/-- Settles O35: a draw of a listed answer in range is that answer. -/
theorem drawsAreFreeInTheirRange : Obligations.DrawsAreFreeInTheirRange :=
  ⟨fun r _ hn => r.draw_mem (by omega), fun r b => r.draw_mem (candidate_range b),
    fun _ _ h h' => RandomSource.exists_draw_eq h h', fun _ _ h h' => RandomSource.exists_draw_eq h h'⟩

end Sys2Proof.Machine
end

section
/-! SUPPORT. What commands do at their commit: the outcome, the signs and PRIME; the claims about steps that need it. -/

namespace Sys2Proof.Machine

/-! ### Sources (10_state.md R23) -/

/-- A command that ends without error read no register with SIGN = 1. -/
theorem Wrote.sources_nonneg {i : Instr} {s u : State} (h : Wrote i s u) : ∀ r ∈ i.sources, s.signBit r = false := by
  cases i with
  | mrtest n => obtain ⟨hn, -⟩ := h; simpa [Instr.sources] using hn
  | genprime d b => obtain ⟨hb, -⟩ := h; simpa [Instr.sources] using hb
  | egcd g x y a b => obtain ⟨-, ha, hb, -⟩ := h; simpa [Instr.sources] using ⟨ha, hb⟩
  | modinv d e phi => obtain ⟨he, hp, -⟩ := h; simpa [Instr.sources] using ⟨he, hp⟩
  | modexp d base exp mod => obtain ⟨hb, he, hm, -⟩ := h; simpa [Instr.sources] using ⟨hb, he, hm⟩
  | blksize d n => obtain ⟨hn, -⟩ := h; simpa [Instr.sources] using hn
  | encode d n len off => obtain ⟨hn, hl, ho, -⟩ := h; simpa [Instr.sources] using ⟨hn, hl, ho⟩
  | decode d m off => obtain ⟨hm, ho, -⟩ := h; simpa [Instr.sources] using ⟨hm, ho⟩

/-! ### Outcomes (60_exceptions.md R206) -/

/-- A command that writes its results passed all its checks. -/
theorem Wrote.firstFailing {i : Instr} {s u : State} (h : Wrote i s u) : FirstFailing (checks s i) .ok := by
  cases i with
  | mrtest n => obtain ⟨hn, -⟩ := h; simp [checks, FirstFailing, hn]
  | genprime d b =>
    obtain ⟨hb, hw, c, hc, -⟩ := h
    simp [checks, FirstFailing, hb, hw, ← searchPrime_none_iff, hc]
  | egcd g x y a b => obtain ⟨-, ha, hb, -⟩ := h; simp [checks, FirstFailing, ha, hb]
  | modinv d e phi =>
    obtain ⟨he, hp, h0, hg, -⟩ := h
    simp [checks, FirstFailing, he, hp, h0, ← egcd_gcd, hg]
  | modexp d base exp mod => obtain ⟨hb, he, hm, h0, -⟩ := h; simp [checks, FirstFailing, hb, he, hm, h0]
  | blksize d n => obtain ⟨hn, -⟩ := h; simp [checks, FirstFailing, hn]
  | encode d n len off =>
    obtain ⟨hn, hl, ho, hL, hend, hm, -⟩ := h
    simp [checks, FirstFailing, hn, hl, ho, hL, hend, State.blockValue_eq_beInt, hm]
  | decode d m off =>
    obtain ⟨hm, ho, hend, hu, -⟩ := h
    rw [length_beBytes] at hend
    rw [beBytes_eq_bigEndian] at hu
    simp [checks, FirstFailing, hm, ho, isByteCount_iff, hend, hu]

/-- The code of an error is that of the first failing check. -/
theorem Raised.firstFailing {i : Instr} {s : State} {r : RandomSource} {e : ErrorCode} (hi : i.wellFormed = true)
    (h : Raised i s r e) : FirstFailing (checks s i) e := by
  cases i with
  | mrtest n => obtain ⟨hn, rfl, -⟩ := h; simp [checks, FirstFailing, hn]
  | genprime d b =>
    rcases h with ⟨hb, rfl, -⟩ | ⟨hb, hw, rfl, hc, -⟩
    · simp only [checks, FirstFailing]; tauto
    · simp [checks, FirstFailing, hb, hw, ← searchPrime_none_iff, hc]
  | egcd g x y a b =>
    obtain ⟨-, ⟨hd, -⟩ | ⟨-, hs, rfl⟩⟩ := h
    · simp [Instr.wellFormed] at hi; tauto
    · simp only [checks, FirstFailing]; tauto
  | modinv d e phi =>
    obtain ⟨-, ⟨hs, rfl⟩ | ⟨he, hp, h0, hg, rfl⟩⟩ := h
    · simp only [checks, FirstFailing]; tauto
    · simp [checks, FirstFailing, he, hp, h0, ← egcd_gcd, hg]
  | modexp d base exp mod => obtain ⟨-, rfl, hs⟩ := h; simp only [checks, FirstFailing]; tauto
  | blksize d n => obtain ⟨-, rfl, hn⟩ := h; simp [checks, FirstFailing, hn]
  | encode d n len off =>
    obtain ⟨-, ⟨hs, rfl⟩ | ⟨hn, hl, ho, hL, hend, hm, rfl⟩⟩ := h
    · simp only [checks, FirstFailing]; tauto
    · simp [checks, FirstFailing, hn, hl, ho, hL, hend, State.blockValue_eq_beInt, hm]
  | decode d m off =>
    obtain ⟨-, ⟨hs, rfl⟩ | ⟨hm, ho, hend, hu, rfl⟩⟩ := h
    · rw [length_beBytes] at hs
      simp only [checks, FirstFailing, isByteCount_iff, exists_eq_left]; tauto
    · rw [length_beBytes] at hend
      rw [beBytes_eq_bigEndian] at hu
      simp [checks, FirstFailing, hm, ho, isByteCount_iff, hend, hu]

/-- A command ends with the code of its first failing check, or with 0. -/
theorem exec_firstFailing {i : Instr} {s t : State} (hi : i.wellFormed = true) (h : exec i s = .next t) :
    FirstFailing (checks s i) t.err := by
  rcases exec_next_cases h with ⟨u, hu, rfl⟩ | ⟨r, e, hr, rfl⟩
  · exact hu.firstFailing
  · exact hr.firstFailing hi

theorem checks_afterTurn (s : State) (i : Instr) : checks s.afterTurn i = checks s i := by
  cases i <;> rfl

/-- The checks of a command begin with the sign of each of its sources (10_state.md R23). -/
theorem checks_begin_with_signs (s : State) (i : Instr) :
    ∃ rest, checks s i = i.sources.map (fun r => (s.signBit r = true, ErrorCode.domainError)) ++ rest := by
  cases i <;> exact ⟨_, rfl⟩

/-- Where one of the first checks fails and all of these report `code`, the outcome is `code`. -/
theorem FirstFailing.eq_of_append {code e : ErrorCode} {l rest : List (Prop × ErrorCode)} (hcode : ∀ c ∈ l, c.2 = code)
    (hfails : ∃ c ∈ l, c.1) (h : FirstFailing (l ++ rest) e) : e = code := by
  induction l with
  | nil => simp at hfails
  | cons c l ih =>
    obtain ⟨hc, hl⟩ := List.forall_mem_cons.1 hcode
    rcases h with ⟨-, he⟩ | ⟨hpass, h⟩
    · exact he.trans hc
    · refine ih hl ?_ h
      obtain ⟨c', hc', hf⟩ := hfails
      rcases List.mem_cons.1 hc' with rfl | hc'
      · exact absurd hf hpass
      · exact ⟨c', hc', hf⟩

theorem FirstFailing.domainError_of_negative_source {i : Instr} {s : State} {e : ErrorCode} {j : Reg}
    (hj : j ∈ i.sources) (hs : s.signBit j = true) (h : FirstFailing (checks s i) e) : e = .domainError := by
  obtain ⟨rest, hrest⟩ := checks_begin_with_signs s i
  rw [hrest] at h
  exact h.eq_of_append (by simp) ⟨_, List.mem_map_of_mem hj, hs⟩

/-- Only a failed search of GENPRIME takes draws and ends with an error. -/
theorem Raised.random_eq {i : Instr} {s : State} {r : RandomSource} {e : ErrorCode} (h : Raised i s r e)
    (he : e ≠ .primeGenerationFailure) : r = s.random := by
  cases i with
  | genprime d b =>
    rcases h with ⟨-, -, hr⟩ | ⟨-, -, rfl, -⟩
    · exact hr
    · exact absurd rfl he
  | mrtest n => obtain ⟨-, -, hr⟩ := h; exact hr
  | egcd _ _ _ _ _ | modinv _ _ _ | modexp _ _ _ _ | blksize _ _ | encode _ _ _ _ | decode _ _ _ => exact h.1

/-- No command reports the code that is reserved for host software (60_exceptions.md R211). -/
theorem Raised.ne_malformedCiphertext {i : Instr} {s : State} {r : RandomSource} {e : ErrorCode} (h : Raised i s r e) :
    e ≠ .malformedCiphertext := by
  rintro rfl
  cases i <;> simp [Raised] at h

/-- Settles O13: the signs of the sources are the first checks of every command. -/
theorem negativeOperandIsDomainError : Obligations.NegativeOperandIsDomainError := by
  intro i s j hi hj hs
  rcases exec_cases i s with ⟨u, hu, -⟩ | ⟨r, e, hr, he⟩
  · simp [hu.sources_nonneg j hj] at hs
  · obtain rfl := (hr.firstFailing hi).domainError_of_negative_source hj hs
    obtain rfl := hr.random_eq (by simp)
    exact he

/-! ### Signs written by commands (10_state.md R22) -/

/-- From `s` to `u` no register has become a negative zero. -/
def NoNewNegativeZero (s u : State) : Prop :=
  ∀ j, u.signBit j = true → u.mag j = 0 → s.signBit j = true ∧ s.mag j = 0

theorem NoNewNegativeZero.of_eq {s u : State} (hx : u.x = s.x) (hg : u.sign = s.sign) : NoNewNegativeZero s u := by
  intro j hj h0
  rw [State.signBit_of_sign_eq hg] at hj
  rw [State.mag_of_x_eq hx] at h0
  exact ⟨hj, h0⟩

theorem NoNewNegativeZero.trans {s u v : State} (h : NoNewNegativeZero s u) (h' : NoNewNegativeZero u v) :
    NoNewNegativeZero s v := fun j hj h0 =>
  have ⟨hj', h0'⟩ := h' j hj h0
  h j hj' h0'

/-- A register write whose zero is not negative makes no negative zero. -/
theorem NoNewNegativeZero.setReg (s : State) (i : Reg) {v : Nat} {b : Bool} (h : b = true → v ≠ 0) :
    NoNewNegativeZero s (s.setReg i v b) := by
  intro j hj h0
  rw [State.signBit_setReg] at hj
  rw [State.mag_setReg] at h0
  by_cases hji : j = i
  · rw [if_pos hji] at hj h0
    exact absurd h0 (h hj)
  · rw [if_neg hji] at hj h0
    exact ⟨hj, h0⟩

theorem NoNewNegativeZero.setReg_false (s : State) (i : Reg) (v : Nat) : NoNewNegativeZero s (s.setReg i v false) :=
  .setReg s i (by simp)

theorem NoNewNegativeZero.writeXs (s : State) (i : Reg) (v : Int) : NoNewNegativeZero s (s.writeXs i v) :=
  .setReg s i (by simp; omega)

theorem Wrote.noNewNegativeZero {i : Instr} {s u : State} (h : Wrote i s u) : NoNewNegativeZero s u := by
  cases i with
  | mrtest n => obtain ⟨-, rfl⟩ := h; exact .of_eq rfl rfl
  | genprime d b =>
    obtain ⟨-, -, c, -, rfl⟩ := h
    exact .trans (.of_eq rfl rfl) (.setReg_false _ d c)
  | egcd g x y a b =>
    obtain ⟨-, -, -, rfl⟩ := h
    exact (NoNewNegativeZero.setReg_false s g _).trans ((NoNewNegativeZero.writeXs _ x _).trans (.writeXs _ y _))
  | modinv d e phi => obtain ⟨-, -, -, -, rfl⟩ := h; exact .setReg_false s d _
  | modexp d base exp mod => obtain ⟨-, -, -, -, rfl⟩ := h; exact .setReg_false s d _
  | blksize d n => obtain ⟨-, rfl⟩ := h; exact .writeXs s d _
  | encode d n len off => obtain ⟨-, -, -, -, -, -, rfl⟩ := h; exact .setReg_false s d _
  | decode d m off =>
    obtain ⟨-, -, -, -, rfl⟩ := h
    exact .trans (.of_eq rfl rfl) (.setReg_false _ d _)

/-- A register write with sign 0 sets no sign bit. -/
theorem signBit_of_setReg_false {s : State} {i j : Reg} {v : Nat} (h : (s.setReg i v false).signBit j = true) :
    s.signBit j = true := by
  rw [State.signBit_setReg] at h
  split at h
  · cases h
  · exact h

/-- A command that is neither EGCD nor BLKSIZE sets no sign bit. -/
theorem Wrote.signBit_of_signBit {i : Instr} {s u : State} {j : Reg} (h : Wrote i s u)
    (hegcd : ∀ g x y a b, i ≠ .egcd g x y a b) (hblksize : ∀ d n, i ≠ .blksize d n) (hj : u.signBit j = true) :
    s.signBit j = true := by
  cases i with
  | mrtest n => obtain ⟨-, rfl⟩ := h; exact hj
  | genprime d b => obtain ⟨-, -, c, -, rfl⟩ := h; exact (signBit_of_setReg_false hj :)
  | egcd g x y a b => exact absurd rfl (hegcd g x y a b)
  | modinv d e phi => obtain ⟨-, -, -, -, rfl⟩ := h; exact signBit_of_setReg_false hj
  | modexp d base exp mod => obtain ⟨-, -, -, -, rfl⟩ := h; exact signBit_of_setReg_false hj
  | blksize d n => exact absurd rfl (hblksize d n)
  | encode d n len off => obtain ⟨-, -, -, -, -, -, rfl⟩ := h; exact signBit_of_setReg_false hj
  | decode d m off => obtain ⟨-, -, -, -, rfl⟩ := h; exact (signBit_of_setReg_false hj :)

/-- Settles O14: a register write never makes a negative zero, and only `Xs` can set a sign bit. -/
theorem signsWrittenByCommands : Obligations.SignsWrittenByCommands := by
  intro i s t j h hj
  rcases exec_next_cases h with ⟨u, hu, rfl⟩ | ⟨r, e, -, rfl⟩
  · exact ⟨hu.noNewNegativeZero j hj, fun hegcd hblksize => hu.signBit_of_signBit hegcd hblksize hj⟩
  · exact ⟨fun h0 => ⟨hj, h0⟩, fun _ _ => hj⟩

/-! ### PRIME (10_state.md R30) -/

/-- Only MRTEST writes PRIME. -/
theorem Wrote.prime_eq {i : Instr} {s u : State} (h : Wrote i s u) (hi : ∀ n, i ≠ .mrtest n) : u.prime = s.prime := by
  cases i with
  | mrtest n => exact absurd rfl (hi n)
  | genprime d b => obtain ⟨-, -, c, -, rfl⟩ := h; rfl
  | egcd g x y a b => obtain ⟨-, -, -, rfl⟩ := h; rfl
  | modinv d e phi => obtain ⟨-, -, -, -, rfl⟩ := h; rfl
  | modexp d base exp mod => obtain ⟨-, -, -, -, rfl⟩ := h; rfl
  | blksize d n => obtain ⟨-, rfl⟩ := h; rfl
  | encode d n len off => obtain ⟨-, -, -, -, -, -, rfl⟩ := h; rfl
  | decode d m off => obtain ⟨-, -, -, -, rfl⟩ := h; rfl

/-- A command that changes PRIME is an MRTEST that ends without error. -/
theorem mrtest_of_exec_prime_ne {i : Instr} {s t : State} (h : exec i s = .next t) (hp : t.prime ≠ s.prime) :
    t.err = .ok ∧ ∃ n, i = .mrtest n := by
  rcases exec_next_cases h with ⟨u, hu, rfl⟩ | ⟨r, e, -, rfl⟩
  · refine ⟨rfl, ?_⟩
    by_contra! hi
    exact hp (hu.prime_eq hi)
  · exact absurd rfl hp

/-- The commit runs the command that CMD decodes to, or ends with IllegalCommand. -/
theorem step_of_commits {s t : State} (hc : Commits s) (h : step s = .next t) :
    (∃ i, decode s.cmd = .ok i ∧ exec i s.afterTurn = .next t) ∨
      (∃ r, decode s.cmd = .error r ∧ t = s.afterTurn.finish .illegalCommand) := by
  obtain ⟨hb, ha⟩ := hc
  have he : engineStep s.afterTurn = .next t := by
    rcases ha with ha | ⟨rest, ha⟩
    · rwa [step_nil ha] at h
    · rwa [step_engine ha] at h
  rcases engineStep_cases he with ⟨-, h⟩ | ⟨hb', -⟩
  · exact h
  · simp [hb] at hb'

theorem prime_of_step {s t : State} (h : step s = .next t) :
    (t.prime ≠ s.prime → Resets s ∨ (Commits s ∧ t.err = .ok ∧ ∃ n, decode s.cmd = .ok (.mrtest n))) ∧
      (Resets s → t.prime = false) := by
  obtain ⟨e, he, ht⟩ := step_event h
  have hprime : t.prime = (e.apply s.control).prime := by rw [← ht]; rfl
  rw [he.resets]
  refine ⟨fun hne => ?_, by rintro rfl; exact hprime⟩
  cases e with
  | commit p c =>
    have hc : Commits s := he.commits.2 ⟨p, c, rfl⟩
    rcases step_of_commits hc h with ⟨i, hi, hx⟩ | ⟨r, -, rfl⟩
    · obtain ⟨herr, n, rfl⟩ := mrtest_of_exec_prime_ne hx hne
      exact .inr ⟨hc, herr, n, hi⟩
    · exact absurd rfl hne
  | reset => exact .inl rfl
  | writeCtrl _ | writeStatus _ | accept _ | drop | silent => exact absurd hprime hne

theorem exec_mrtest_of_nonneg {n : Reg} {s : State} (hn : s.signBit n = false) :
    ∃ t, exec (.mrtest n) s = .next t ∧ Committed t .ok ∧
      t.prime = (millerRabin s.params.mrRounds (s.mag n) s.random).1 := by
  rcases exec_cases (.mrtest n) s with ⟨u, ⟨-, rfl⟩, he⟩ | ⟨r, e, ⟨hneg, -⟩, -⟩
  · exact ⟨_, he, ⟨rfl, rfl, rfl⟩, rfl⟩
  · simp [hn] at hneg

/-- Settles O15: of all events a reset and a commit touch PRIME, and of all commands MRTEST. -/
theorem primeIsWrittenByMrtestOnly : Obligations.PrimeIsWrittenByMrtestOnly :=
  ⟨fun _ _ h => prime_of_step h, fun _ _ hn => exec_mrtest_of_nonneg hn, fun _ _ _ _ _ => rfl⟩

/-- Settles O21: at a commit the outcome of `exec` is that of its first failing check. -/
theorem errSetByAcceptanceCommitAndReset : Obligations.ErrSetByAcceptanceCommitAndReset := by
  intro s t h
  obtain ⟨e, he, ht⟩ := step_event h
  have herr : t.err = (e.apply s.control).err := by rw [← ht]; rfl
  refine ⟨?_, fun hc hw => ?_, fun i hc hi => ?_, ?_⟩
  · rw [he.acceptsCommand, he.resets]
    rintro (⟨w, rfl⟩ | rfl) <;> exact herr
  · obtain ⟨r, hr⟩ := (rejected_iff_illegalWord s.cmd).2 hw
    rcases step_of_commits hc h with ⟨i, hi, -⟩ | ⟨-, -, rfl⟩
    · cases hr.symm.trans hi
    · rfl
  · rcases step_of_commits hc h with ⟨j, hj, hx⟩ | ⟨r, hr, -⟩
    · cases hi.symm.trans hj
      rw [← checks_afterTurn]
      exact exec_firstFailing (wellFormed_of_decode hi) hx
    · cases hi.symm.trans hr
  · rw [he.acceptsCommand, he.resets, he.commits, herr]
    cases e <;> simp [Event.apply]

/-- Settles O22, event by event; a read of CMD is never hidden. -/
theorem cmdIeAndParametersChange : Obligations.CmdIeAndParametersChange := by
  refine ⟨fun s t h => ?_, fun s rest ha => ?_⟩
  · obtain ⟨e, he, ht⟩ := step_event h
    rw [he.acceptsCommand, he.resets, ← State.control_cmd t, ← State.control_ie t, ← State.control_params t, ht]
    refine ⟨fun w hb hw => ?_, ?_, ?_, fun hr hw => ?_, ?_⟩
    · obtain rfl := (he.accepts w).1 ⟨hb, hw⟩
      rfl
    · rintro rfl; exact ⟨rfl, rfl⟩
    · cases e <;> simp [Event.apply]
    · cases e with
      | reset => exact absurd rfl hr
      | writeCtrl v => exact absurd ((he.writesCtrl v).2 rfl).1 (hw v)
      | commit _ _ | writeStatus _ | accept _ | drop | silent => rfl
    · cases e <;> rfl
  · rw [step_host ha, hostStep_read (by decide), place_cmd, State.hostRead_of_visible (.inr rfl), State.afterTurn_of_cons ha]
    rfl

end Sys2Proof.Machine
end

section
/-! SUPPORT. The invariant of the state. -/

namespace Sys2Proof.Machine

/-- The part of the invariant that speaks of the parameters, X and BUF. -/
structure State.DataOk (s : State) : Prop where
  legal : s.params.Legal
  mag_lt : ∀ i, s.mag i < 2 ^ s.params.w
  buf_wf : s.buf.wf
  buf_below : s.buf.below s.params.bufBytes

/-- The part of the invariant that speaks of STATUS. -/
structure Control.Ok (c : Control) : Prop where
  done_of_busy : c.busy = true → c.done = false
  err_of_busy : c.busy = true → c.err = .ok
  err_written : c.err ≠ .malformedCiphertext

theorem State.inv_iff (s : State) : s.Inv ↔ s.DataOk ∧ s.control.Ok :=
  ⟨fun h => ⟨⟨h.legal, h.mag_lt, h.buf_wf, h.buf_below⟩, ⟨h.done_of_busy, h.err_of_busy, h.err_written⟩⟩,
    fun ⟨d, c⟩ => ⟨d.legal, d.mag_lt, d.buf_wf, d.buf_below, c.done_of_busy, c.err_of_busy, c.err_written⟩⟩

/-! ### STATUS -/

/-- An event that writes no reserved code keeps STATUS consistent: only an acceptance sets BUSY, and it clears DONE and
ERR. -/
theorem Event.apply_ok {e : Event} {c : Control} (hc : c.Ok) (he : ∀ p, e ≠ .commit p .malformedCiphertext) :
    (e.apply c).Ok := by
  obtain ⟨hdone, herr, hcode⟩ := hc
  cases e with
  | commit p code => exact ⟨by simp [Event.apply], by simp [Event.apply], fun h => he p (congrArg _ h)⟩
  | reset | accept _ => constructor <;> simp [Event.apply]
  | writeStatus v => exact ⟨fun hb => by simp [Event.apply, hdone hb], herr, hcode⟩
  | writeCtrl _ | drop | silent => exact ⟨hdone, herr, hcode⟩

theorem exec_err_ne_malformedCiphertext {i : Instr} {s t : State} (h : exec i s = .next t) :
    t.err ≠ .malformedCiphertext := by
  rcases exec_next_cases h with ⟨u, -, rfl⟩ | ⟨r, e, hr, rfl⟩
  · simp
  · exact hr.ne_malformedCiphertext

/-- No commit writes the code reserved for host software (60_exceptions.md R211). -/
theorem commit_err_ne_malformedCiphertext {s t : State} (hc : Commits s) (h : step s = .next t) :
    t.err ≠ .malformedCiphertext := by
  rcases step_of_commits hc h with ⟨i, -, hx⟩ | ⟨r, -, rfl⟩
  · exact exec_err_ne_malformedCiphertext hx
  · simp

theorem step_control_ok {s t : State} (hs : s.control.Ok) (h : step s = .next t) : t.control.Ok := by
  obtain ⟨e, he, ht⟩ := step_event h
  rw [ht]
  refine Event.apply_ok hs ?_
  rintro p rfl
  exact commit_err_ne_malformedCiphertext (he.commits.2 ⟨_, _, rfl⟩) h (congrArg Control.err ht)

/-! ### X and BUF -/

/-- The data part depends on the parameters, X and BUF alone. -/
theorem State.DataOk.of_eq {s t : State} (hs : s.DataOk) (hp : t.params = s.params) (hx : t.x = s.x)
    (hb : t.buf = s.buf) : t.DataOk := by
  refine ⟨by rw [hp]; exact hs.legal, fun i => ?_, by rw [hb]; exact hs.buf_wf, by rw [hb, hp]; exact hs.buf_below⟩
  rw [State.mag_of_x_eq hx, hp]
  exact hs.mag_lt i

/-- Writing a magnitude below 2^W to a register keeps the data part. -/
theorem State.DataOk.setReg {s : State} (hs : s.DataOk) (i : Reg) {v : Nat} (b : Bool) (hv : v < 2 ^ s.params.w) :
    (s.setReg i v b).DataOk := by
  refine ⟨hs.legal, fun j => ?_, hs.buf_wf, hs.buf_below⟩
  rw [State.mag_setReg, State.setReg_params]
  split
  · exact hv
  · exact hs.mag_lt j

/-- Writing bytes below BUF_BYTES keeps the data part. -/
theorem State.DataOk.writeBytes {s : State} (hs : s.DataOk) (bs : List Byte) (a : Nat)
    (h : a + bs.length ≤ s.params.bufBytes) : { s with buf := s.buf.writeBytes a bs : State }.DataOk :=
  ⟨hs.legal, hs.mag_lt, Memory.wf_writeBytes hs.buf_wf bs a, Memory.below_writeBytes bs a h hs.buf_below⟩

/-- EGCD's coefficients are magnitudes. -/
theorem State.DataOk.max_one_mag_lt {s : State} (hs : s.DataOk) {v : Nat} {i : Reg} (h : v ≤ max 1 (s.mag i)) :
    v < 2 ^ s.params.w := by
  obtain ⟨⟨-, hw, -⟩, -⟩ := hs.legal
  exact h.trans_lt (max_lt (Nat.one_lt_two_pow (by omega)) (hs.mag_lt i))

/-- The results of a command fit their registers (42_euclid.md R121, 43_modexp.md R143) and BUF. -/
theorem Wrote.dataOk {i : Instr} {s u : State} (hs : s.DataOk) (h : Wrote i s u) : u.DataOk := by
  obtain ⟨⟨-, hw, -⟩, -⟩ := hs.legal
  cases i with
  | mrtest n => obtain ⟨-, rfl⟩ := h; exact hs.of_eq rfl rfl rfl
  | genprime d b =>
    obtain ⟨-, hb, c, hc, rfl⟩ := h
    have hlt : c < 2 ^ s.params.w := (searchPrime_lt hc).trans_le (Nat.pow_le_pow_right (by omega) hb)
    exact (hs.setReg d false hlt).of_eq rfl rfl rfl
  | egcd g x y a b =>
    obtain ⟨-, -, -, rfl⟩ := h
    obtain ⟨hx, hy⟩ := egcd_coefficients_le (s.mag a) (s.mag b)
    exact ((hs.setReg g false (egcd_gcd_lt (hs.mag_lt a) (hs.mag_lt b))).setReg x _ (hs.max_one_mag_lt hx)).setReg y _
      (hs.max_one_mag_lt hy)
  | modinv d e phi =>
    obtain ⟨-, -, h0, -, rfl⟩ := h
    have := Int.emod_lt_of_pos (egcd (s.mag e) (s.mag phi)).2.1 (show (0 : Int) < s.mag phi by omega)
    exact hs.setReg d false (lt_trans (by omega) (hs.mag_lt phi))
  | modexp d base exp mod =>
    obtain ⟨-, -, -, h0, rfl⟩ := h
    rw [modExp_eq_pow]
    exact hs.setReg d false ((Nat.mod_lt _ (Nat.pos_of_ne_zero h0)).trans (hs.mag_lt mod))
  | blksize d n =>
    obtain ⟨-, rfl⟩ := h
    exact hs.setReg d _ (blockIntSize_natAbs_lt (by omega) (hs.mag_lt n))
  | encode d n len off =>
    obtain ⟨-, -, -, -, -, hm, rfl⟩ := h
    exact hs.setReg d false (hm.trans (hs.mag_lt n))
  | decode d m off =>
    obtain ⟨-, -, hend, -, rfl⟩ := h
    have hl : (beBytes (s.mag m)).length ≤ s.params.w := by
      have := (bitlen_le_iff _ _).2 (hs.mag_lt m)
      rw [length_beBytes, byteLength]
      omega
    exact (hs.writeBytes _ _ hend).setReg d false (hl.trans_lt Nat.lt_two_pow_self)

theorem exec_dataOk {i : Instr} {s t : State} (hs : s.DataOk) (h : exec i s = .next t) : t.DataOk := by
  rcases exec_next_cases h with ⟨u, hu, rfl⟩ | ⟨r, e, -, rfl⟩
  · exact (hu.dataOk hs).of_eq rfl rfl rfl
  · exact hs.of_eq rfl rfl rfl

/-- The values that a reset leaves fit X and BUF (70_reset_and_hazards.md R231). -/
theorem State.DataOk.scramble {s : State} (hs : s.DataOk) : s.scramble.DataOk := by
  refine ⟨hs.legal, fun i => ?_, Memory.wf_ofFn _ _, Memory.below_ofFn _ _⟩
  simp only [State.mag, State.scramble_x, State.scramble_params, Fin.getElem_fin, Vector.getElem_ofFn]
  exact Nat.mod_lt _ (Nat.two_pow_pos _)

theorem State.DataOk.resetControl {s : State} (hs : s.DataOk) : s.resetControl.DataOk := hs.of_eq rfl rfl rfl

theorem State.DataOk.softReset {s : State} (hs : s.DataOk) : s.softReset.DataOk := by
  unfold State.softReset
  split
  · exact hs.scramble.resetControl
  · exact hs.resetControl

theorem State.DataOk.hostRead {s : State} (hs : s.DataOk) (pl : Place) : (s.hostRead pl).DataOk := by
  unfold State.hostRead
  split <;> exact hs.of_eq rfl rfl rfl

/-- The place lies inside X and BUF: its limb is one of W/32, its word one of BUF_BYTES/4 (20_memory.md R52, R53). -/
def Place.Within (p : Params) : Place → Prop
  | .limb _ j => j < p.w / 32
  | .bufWord k => k < p.bufBytes / 4
  | .ctrl | .status | .cmd | .param0 | .sign | .param1 | .reserved => True

theorem place_within (p : Params) (off : BitVec 14) : (place p off).Within p := by
  simp only [place]
  iterate 7
    split
    · trivial
  split
  · split
    · assumption
    · trivial
  · split
    · assumption
    · trivial

theorem State.DataOk.withLimb {s : State} (hs : s.DataOk) {i : Reg} {j : Nat} (v : Word) (hj : j < s.params.w / 32) :
    { s with x := s.x.set i (withLimb (s.mag i) j v) : State }.DataOk := by
  obtain ⟨⟨hw, -, -⟩, -⟩ := hs.legal
  have e : 32 * (s.params.w / 32) = s.params.w := by omega
  have hlt : Machine.withLimb (s.mag i) j v < 2 ^ s.params.w := by
    rw [← e]
    exact withLimb_lt v hj (by rw [e]; exact hs.mag_lt i)
  exact (hs.setReg i false hlt).of_eq rfl rfl rfl

theorem State.DataOk.unlessBusy {s t : State} (hs : s.DataOk) (ht : t.DataOk) : (s.unlessBusy t).DataOk := by
  unfold State.unlessBusy
  split
  · exact hs.of_eq rfl rfl rfl
  · exact ht

theorem State.DataOk.hostWrite {s : State} (hs : s.DataOk) (v : Word) {pl : Place} (hpl : pl.Within s.params) :
    (s.hostWrite v pl).DataOk := by
  cases pl with
  | ctrl =>
    simp only [State.hostWrite, State.writeCtrl]
    split
    · exact hs.softReset
    · exact hs.of_eq rfl rfl rfl
  | status => exact hs.of_eq rfl rfl rfl
  | cmd =>
    simp only [State.hostWrite, State.writeCmd]
    split <;> exact hs.of_eq rfl rfl rfl
  | sign => exact hs.unlessBusy (hs.of_eq rfl rfl rfl)
  | limb i j => exact hs.unlessBusy (hs.withLimb v hpl)
  | bufWord k =>
    obtain ⟨-, ⟨hb, -, -⟩, -⟩ := hs.legal
    have hk : k < s.params.bufBytes / 4 := hpl
    refine hs.unlessBusy (hs.writeBytes (wordBytes v) (4 * k) ?_)
    simp only [wordBytes, List.length_cons, List.length_nil]
    omega
  | param0 | param1 | reserved => exact hs

theorem State.DataOk.afterTurn {s : State} (hs : s.DataOk) : s.afterTurn.DataOk := hs.of_eq rfl rfl rfl

theorem step_dataOk {s t : State} (hs : s.DataOk) (h : step s = .next t) : t.DataOk := by
  have hs' := hs.afterTurn
  rcases step_cases h with ⟨-, hstep⟩ | ⟨rest, -, rfl⟩ | ⟨off, rest, -, -, rfl⟩ | ⟨off, v, rest, -, -, rfl⟩
  · rcases hstep with ⟨-, ⟨i, -, hx⟩ | ⟨r, -, rfl⟩⟩ | ⟨-, rfl⟩
    · exact exec_dataOk hs' hx
    · exact hs'.of_eq rfl rfl rfl
    · exact hs'
  · exact hs'.scramble.resetControl
  · exact hs'.hostRead _
  · exact hs'.hostWrite v (place_within _ off)

/-- Settles O16: STATUS event by event, X and BUF by a bound for each write. -/
theorem stepKeepsInvariant : Obligations.StepKeepsInvariant := by
  intro s t hs h
  obtain ⟨hdata, hcontrol⟩ := s.inv_iff.1 hs
  exact t.inv_iff.2 ⟨step_dataOk hdata h, step_control_ok hcontrol h⟩

end Sys2Proof.Machine
end

section
/-! SUPPORT. The register window as the host sees it: refusals, reads, the limbs of X, the words of BUF, reserved offsets. -/

namespace Sys2Proof.Machine

/-! ### Refusals (20_memory.md R56, 60_exceptions.md R216) -/

/-- Every command answers an idle state. -/
theorem exec_next_idle (i : Instr) (s : State) : ∃ t, exec i s = .next t ∧ t.busy = false := by
  rcases exec_cases i s with ⟨u, -, h⟩ | ⟨r, e, -, h⟩ <;> exact ⟨_, h, rfl⟩

/-- The engine's turn answers an idle state: it commits the command in flight, if there is one. -/
theorem engineStep_next_idle (s : State) : ∃ t, engineStep s = .next t ∧ t.busy = false := by
  cases hb : s.busy with
  | false => exact ⟨s, engineStep_idle hb, hb⟩
  | true =>
    rcases engineStep_busy hb with ⟨i, -, h⟩ | ⟨r, -, h⟩
    · rw [h]; exact exec_next_idle i s
    · exact ⟨_, h, rfl⟩

/-- The engine's turn comes when it is listed, and when no turn is (log entry 4). -/
theorem step_next_idle_of_engineTurn {s : State} (h : EngineTurn s) : ∃ t, step s = .next t ∧ t.busy = false := by
  rcases h with ha | ⟨rest, ha⟩
  · rw [step_nil ha]; exact engineStep_next_idle _
  · rw [step_engine ha]; exact engineStep_next_idle _

theorem hostStep_refused_iff (s : State) (a : Access) :
    (∃ r, hostStep s a = .refused r) ↔ a.isAligned = false := by
  rcases hostStep_cases s a with ⟨off, rfl, ho, h⟩ | ⟨off, v, rfl, ho, h⟩ | ⟨ha, hr⟩
  · simp [h, Access.isAligned, ho]
  · simp [h, Access.isAligned, ho]
  · exact iff_of_true hr ha

/-- The refused steps are the host's, by the turn at the head of the agenda. -/
theorem step_refused_iff (s : State) :
    (∃ r, step s = .refused r) ↔ ∃ a rest, s.agenda = .host a :: rest ∧ a.isAligned = false := by
  rcases ha : s.agenda with - | ⟨turn, rest⟩
  · obtain ⟨t, ht, -⟩ := step_next_idle_of_engineTurn (.inl ha)
    simp [ht]
  · cases turn with
    | host a => simp [step_host ha, hostStep_refused_iff]
    | engine =>
      obtain ⟨t, ht, -⟩ := step_next_idle_of_engineTurn (.inr ⟨rest, ha⟩)
      simp [ht]
    | reset => simp [step_reset ha]

/-- Settles O8: the engine's turn always commits, a reset always applies, and the host's accesses split by alignment. -/
theorem onlyUnalignedAccessesAreRefused : Obligations.OnlyUnalignedAccessesAreRefused := fun s =>
  ⟨nofun, step_refused_iff s, fun _ hturn => step_next_idle_of_engineTurn hturn⟩

/-! ### Reads (20_memory.md R58) -/

/-- A read changes nothing but `reads` and the count of free values. -/
theorem State.hostRead_eq (s : State) (pl : Place) :
    ∃ (v : Word) (free : Nat), s.hostRead pl = { s with reads := v :: s.reads, free := free } := by
  unfold State.hostRead
  split
  · exact ⟨_, _, rfl⟩
  · exact ⟨_, s.free, rfl⟩

/-- Settles O24: the step is `hostRead` of the offset's place. -/
theorem readsHaveNoSideEffect : Obligations.ReadsHaveNoSideEffect := by
  intro s off rest ha ho
  rw [step_host ha, hostStep_read ho, State.afterTurn_of_cons ha]
  obtain ⟨v, free, h⟩ := State.hostRead_eq { s with agenda := rest } (place s.params off)
  exact ⟨v, free, congrArg _ h⟩

theorem hostStep_read_of_visible {s : State} {off : BitVec 14} {pl : Place} (ho : off.toNat % 4 = 0)
    (hp : place s.params off = pl) (h : s.busy = false ∨ pl.hiddenWhileBusy = false) :
    hostStep s (.read .word off) = .next { s with reads := s.readPlace pl :: s.reads } := by
  rw [hostStep_read ho, hp, State.hostRead_of_visible h]

/-! ### Operands while BUSY (20_memory.md R57, R59) -/

/-- While BUSY a host write that is no soft reset changes nothing of X, SIGN and BUF. -/
theorem State.hostWrite_operands_of_busy {s : State} {v : Word} {pl : Place} (hb : s.busy = true)
    (hr : pl = .ctrl → v[1] = false) :
    (s.hostWrite v pl).x = s.x ∧ (s.hostWrite v pl).sign = s.sign ∧ (s.hostWrite v pl).buf = s.buf := by
  cases pl with
  | ctrl => simp [State.hostWrite, State.writeCtrl, hr rfl]
  | cmd => simp [State.hostWrite, State.writeCmd, hb]
  | sign | limb _ _ | bufWord _ => simp [State.hostWrite, State.unlessBusy, hb]
  | status | param0 | param1 | reserved => exact ⟨rfl, rfl, rfl⟩

/-- A write to CTRL that is no reset has bit 1 = 0. -/
theorem bit_one_of_not_resets {s : State} {off : BitVec 14} {v : Word} {rest : List Turn} (hr : ¬Resets s)
    (ha : s.agenda = .host (.write .word off v) :: rest) (ho : off.toNat % 4 = 0) (hp : place s.params off = .ctrl) :
    v[1] = false := by
  obtain rfl := (place_control_iff s.params off ho).1.2 hp
  by_contra hv
  exact hr (.inr ⟨v, ⟨rest, ha⟩, by simpa using hv⟩)

/-- While BUSY no step but a commit or a reset changes X, SIGN or BUF. -/
theorem step_operands_of_busy {s t : State} (h : step s = .next t) (hb : s.busy = true) (hc : ¬Commits s)
    (hr : ¬Resets s) : t.x = s.x ∧ t.sign = s.sign ∧ t.buf = s.buf := by
  rcases step_cases h with
    ⟨hturn, -⟩ | ⟨rest, ha, -⟩ | ⟨off, rest, -, -, rfl⟩ | ⟨off, v, rest, ha, ho, rfl⟩
  · exact absurd ⟨hb, hturn⟩ hc
  · exact absurd (.inl ⟨rest, ha⟩) hr
  · obtain ⟨v, free, e⟩ := s.afterTurn.hostRead_eq (place s.params off)
    rw [e]
    exact ⟨rfl, rfl, rfl⟩
  · exact State.hostWrite_operands_of_busy (s := s.afterTurn) hb (bit_one_of_not_resets hr ha ho)

/-- Settles O23: a busy engine drops writes to operands; CMD and BUSY keep by the events of the step. -/
theorem operandsAreFrozenWhileBusy : Obligations.OperandsAreFrozenWhileBusy := by
  intro s t h hb hc hr
  obtain ⟨hx, hsign, hbuf⟩ := step_operands_of_busy h hb hc hr
  obtain ⟨-, -, hcmd, -, -⟩ := cmdIeAndParametersChange.1 s t h
  have haccept : ¬AcceptsCommand s := fun ⟨hidle, _⟩ => by simp [hb] at hidle
  exact ⟨hx, hsign, hbuf, hcmd haccept hr, (busySetAndCleared s t h).2 (.inr ⟨hb, hc, hr⟩)⟩

/-! ### Reserved offsets (20_memory.md R55) -/

theorem place_of_reservedOffset {p : Params} {off : BitVec 14} (h : ReservedOffset p off.toNat) :
    place p off = .reserved := by
  rcases h with ⟨hlo, hhi⟩ | ⟨i, j, hi, hw, hj, e⟩ | ⟨k, hw, hk, e⟩
  · exact place_low p off hlo hhi
  · rw [place_limb p off ⟨i, hi⟩ hj e, if_neg (by omega)]
  · rw [place_bufWord p off hk e, if_neg (by omega)]

/-- Settles O27: a reserved place is never hidden, reads 0 and ignores writes. -/
theorem reservedOffsetsReadZero : Obligations.ReservedOffsetsReadZero := by
  intro s off v ho hres
  have hp := place_of_reservedOffset hres
  refine ⟨hostStep_read_of_visible ho hp (.inr rfl), ?_⟩
  rw [hostStep_write v ho, hp]
  rfl

/-! ### Limbs of X (20_memory.md R52) -/

theorem limbOf_eq (v j : Nat) : limbOf v j = BitVec.ofNat 32 (v / 2 ^ (32 * j)) := by
  rw [limbOf, Nat.shiftRight_eq_div_pow]

theorem State.mag_set_x (s : State) (i j : Reg) (m : Nat) :
    State.mag { s with x := s.x.set i m } j = if j = i then m else s.mag j :=
  s.mag_setReg i j m false

theorem State.unlessBusy_of_idle {s : State} (hb : s.busy = false) (t : State) : s.unlessBusy t = t := by
  simp [State.unlessBusy, hb]

/-- Settles O25: a write replaces one digit of the magnitude in base 2^32. -/
theorem limbOfXRegister : Obligations.LimbOfXRegister := by
  intro s off i j v hb hj he
  have ho : off.toNat % 4 = 0 := by rw [he, limbOffset]; omega
  refine ⟨fun hw => ?_, fun hw => reservedOffsetsReadZero s off v ho (.inr (.inl ⟨i, j, i.isLt, hw, hj, he⟩))⟩
  have hp : place s.params off = .limb i j := by rw [place_limb s.params off i hj he, if_pos hw]
  have hread := hostStep_read_of_visible ho hp (.inl hb)
  have hwrite := hostStep_write (s := s) v ho
  rw [State.readPlace, limbOf_eq] at hread
  rw [hp, State.hostWrite, State.unlessBusy_of_idle hb] at hwrite
  refine ⟨hread, _, hwrite, rfl, fun j' => ?_, fun i' hi' => ?_⟩
  · rw [State.mag_set_x, if_pos rfl]
    exact limb_withLimb (s.mag i) j j' v
  · rw [State.mag_set_x, if_neg hi']

/-! ### Words of BUF (20_memory.md R53) -/

/-- A word as the little-endian sum of its lanes. -/
theorem bytesWord_toNat (b0 b1 b2 b3 : Byte) :
    (bytesWord b0 b1 b2 b3).toNat = b0.toNat + 2 ^ 8 * b1.toNat + 2 ^ 16 * b2.toNat + 2 ^ 24 * b3.toNat := by
  unfold bytesWord
  simp only [BitVec.toNat_append]
  iterate 3 rw [← Nat.shiftLeft_add_eq_or_of_lt (by omega)]
  simp only [Nat.shiftLeft_eq]
  omega

/-- Lane `b` of a word. -/
theorem wordBytes_getD_toNat (v : Word) {b : Nat} (hb : b < 4) (d : Byte) :
    ((wordBytes v).getD b d).toNat = v.toNat / 2 ^ (8 * b) % 2 ^ 8 := by
  interval_cases b <;> simp [wordBytes, BitVec.extractLsb'_toNat, Nat.shiftRight_eq_div_pow]

/-- A word written to BUF: its four lanes, lowest byte first. -/
theorem Memory.read_writeBytes_wordBytes_lane {m : Memory} (hm : m.wf) (v : Word) (a : Nat) {b : Nat} (hb : b < 4) :
    ((m.writeBytes a (wordBytes v)).read (a + b)).toNat = v.toNat / 2 ^ (8 * b) % 2 ^ 8 := by
  rw [Memory.read_writeBytes hm, if_pos (by omega), Nat.add_sub_cancel_left, wordBytes_getD_toNat v hb]

/-- A word written to BUF leaves every byte outside its lanes. -/
theorem Memory.read_writeBytes_wordBytes_outside {m : Memory} (hm : m.wf) (v : Word) {a a' : Nat}
    (h : a' < a ∨ a + 4 ≤ a') : (m.writeBytes a (wordBytes v)).read a' = m.read a' := by
  rw [Memory.read_writeBytes hm]
  split
  · exact List.getD_eq_default _ _ (by simp only [wordBytes, List.length_cons, List.length_nil]; omega)
  · rfl

/-- Settles O26: a write puts the word's lanes at bytes 4k to 4k+3. -/
theorem wordOfBuf : Obligations.WordOfBuf := by
  intro s off k v hwf hb hk he
  have ho : off.toNat % 4 = 0 := by rw [he, bufOffset]; omega
  refine ⟨fun hw => ?_, fun hw => reservedOffsetsReadZero s off v ho (.inr (.inr ⟨k, hw, hk, he⟩))⟩
  have hp : place s.params off = .bufWord k := by rw [place_bufWord s.params off hk he, if_pos hw]
  have hwrite := hostStep_write (s := s) v ho
  rw [hp, State.hostWrite, State.unlessBusy_of_idle hb] at hwrite
  exact ⟨⟨s.bufWordOf k, hostStep_read_of_visible ho hp (.inl hb), bytesWord_toNat _ _ _ _⟩, _, hwrite, rfl,
    fun b hlane => Memory.read_writeBytes_wordBytes_lane hwf v (4 * k) hlane,
    fun a houtside => Memory.read_writeBytes_wordBytes_outside hwf v houtside⟩

end Sys2Proof.Machine
end

section
/-! SUPPORT. The decoder and the encoder are inverse to each other on well-formed commands. -/

namespace Sys2Proof

/-! ### From a command to its word and back (30_encoding.md R74) -/

theorem Instr.wellFormed_egcd_iff (g x y a b : Reg) :
    (Instr.egcd g x y a b).wellFormed = true ↔ g ≠ x ∧ g ≠ y ∧ x ≠ y := by
  simp [Instr.wellFormed, and_assoc]

/-- Settles O2, command by command: the fields a command does not use are packed as 0, so its row of the decoder
accepts the word, and only EGCD's row needs the command to be well formed. -/
theorem decodeOfEncode : Obligations.DecodeOfEncode := by
  intro i hwf
  cases i with
  | mrtest n => exact (decode_mrtest 0 0 n 0 0 0).trans (if_pos ⟨rfl, rfl, rfl, rfl, rfl⟩)
  | genprime d b => exact (decode_genprime 0 0 b 0 0 d).trans (if_pos ⟨rfl, rfl, rfl, rfl⟩)
  | egcd g x y a b =>
    have distinct := (Instr.wellFormed_egcd_iff g x y a b).1 hwf
    exact (decode_egcd 0 b a y x g).trans ((if_pos rfl).trans (if_pos distinct))
  | modinv d e phi => exact (decode_modinv 0 phi e 0 0 d).trans (if_pos ⟨rfl, rfl, rfl⟩)
  | modexp d base exp mod => exact (decode_modexp mod exp base 0 0 d).trans (if_pos ⟨rfl, rfl⟩)
  | blksize d n => exact (decode_blksize 0 0 n 0 0 d).trans (if_pos ⟨rfl, rfl, rfl, rfl⟩)
  | encode d n len off => exact (decode_encode off len n 0 0 d).trans (if_pos ⟨rfl, rfl⟩)
  | decode d m off => exact (decode_decode 0 off m 0 0 d).trans (if_pos ⟨rfl, rfl, rfl⟩)

/-- Settles O1: the words are closed, and the decoder computes. -/
theorem specWordsDecode : Obligations.SpecWordsDecode := by
  unfold Obligations.SpecWordsDecode
  decide

/-! ### From a word to its command and back (30_encoding.md R74, R75) -/

/-- A guarded row of the decoder that answers a command passed its guard. -/
theorem guard_of_ite_eq_ok {c : Prop} [Decidable c] {row : Except Reject Instr} {r : Reject} {i : Instr}
    (h : (if c then row else .error r) = .ok i) : c ∧ row = .ok i := by
  split at h
  · next hc => exact ⟨hc, h⟩
  · cases h

/-- A packed word that decodes is the word of its command: the fields that `encode` packs as 0 are those that the
command's row requires to be 0. -/
theorem encode_of_decode_packWord {s2 s1 s0 d2 d1 d0 : Reg} {opc : Byte} {i : Instr}
    (h : decode (packWord s2 s1 s0 d2 d1 d0 opc) = .ok i) : encode i = packWord s2 s1 s0 d2 d1 d0 opc := by
  rcases opcode_cases opc with hreserved | rfl | rfl | rfl | rfl | rfl | rfl | rfl | rfl
  · rw [decode_reserved _ _ _ _ _ _ hreserved] at h; cases h
  · rw [decode_mrtest] at h
    obtain ⟨⟨rfl, rfl, rfl, rfl, rfl⟩, ⟨⟩⟩ := guard_of_ite_eq_ok h
    rfl
  · rw [decode_genprime] at h
    obtain ⟨⟨rfl, rfl, rfl, rfl⟩, ⟨⟩⟩ := guard_of_ite_eq_ok h
    rfl
  · rw [decode_egcd] at h
    obtain ⟨rfl, hrow⟩ := guard_of_ite_eq_ok h
    obtain ⟨-, ⟨⟩⟩ := guard_of_ite_eq_ok hrow
    rfl
  · rw [decode_modinv] at h
    obtain ⟨⟨rfl, rfl, rfl⟩, ⟨⟩⟩ := guard_of_ite_eq_ok h
    rfl
  · rw [decode_modexp] at h
    obtain ⟨⟨rfl, rfl⟩, ⟨⟩⟩ := guard_of_ite_eq_ok h
    rfl
  · rw [decode_blksize] at h
    obtain ⟨⟨rfl, rfl, rfl, rfl⟩, ⟨⟩⟩ := guard_of_ite_eq_ok h
    rfl
  · rw [decode_encode] at h
    obtain ⟨⟨rfl, rfl⟩, ⟨⟩⟩ := guard_of_ite_eq_ok h
    rfl
  · rw [decode_decode] at h
    obtain ⟨⟨rfl, rfl, rfl⟩, ⟨⟩⟩ := guard_of_ite_eq_ok h
    rfl

/-- A word that decodes has RES = 0. -/
theorem fieldRES_of_decode {w : Word} {i : Instr} (h : decode w = .ok i) : fieldRES w = 0 := by
  by_contra hres
  obtain ⟨r, hr⟩ := decode_of_fieldRES_ne hres
  rw [h] at hr
  cases hr

/-- Settles O3: a word that decodes is the packing of its fields. -/
theorem encodeOfDecode : Obligations.EncodeOfDecode := by
  intro w i h
  refine ⟨?_, wellFormed_of_decode h⟩
  have hw := packWord_fields (fieldRES_of_decode h)
  rw [← hw] at h
  exact (encode_of_decode_packWord h).trans hw

/-! ### Illegal words (30_encoding.md R76) -/

/-- Settles O4: the clauses of R76 on the fields of the word. -/
theorem rejectedWordsAreTheIllegalWords : Obligations.RejectedWordsAreTheIllegalWords :=
  rejected_iff_illegalWord

end Sys2Proof
end

section
/-! SUPPORT. What an illegal word written to CMD does, turn by turn. -/

namespace Sys2Proof.Machine

theorem run_succ_of_next {s t : State} (h : step s = .next t) (k : Nat) : run (k + 1) s = run k t := by
  rw [run, h]

/-- A word written to CMD while idle is accepted, whatever its bits (60_exceptions.md R205). -/
theorem step_acceptsWord {s : State} {w : Word} {rest : List Turn} (hb : s.busy = false)
    (ha : s.agenda = .host (.write .word 0x0008#14 w) :: rest) :
    step s = .next { s with agenda := rest, cmd := w, busy := true, done := false, err := .ok } := by
  rw [step_host ha, State.afterTurn_of_cons ha, hostStep_write w (by decide), place_cmd]
  simp [State.hostWrite, State.writeCmd, hb]

/-- The engine's turn commits an illegal word in flight, and nothing but the outcome is written. -/
theorem step_commitsIllegalWord {s : State} {rest : List Turn} (hb : s.busy = true) (hw : IllegalWord s.cmd)
    (ha : s.agenda = .engine :: rest) :
    step s = .next ({ s with agenda := rest }.finish .illegalCommand) := by
  rw [step_engine ha, State.afterTurn_of_cons ha]
  obtain ⟨r, hr⟩ := (rejected_iff_illegalWord s.cmd).2 hw
  rcases engineStep_busy (s := { s with agenda := rest }) hb with ⟨i, hi, -⟩ | ⟨-, -, h⟩
  · rw [hr] at hi; cases hi
  · exact h

/-- Settles O5: the acceptance and then the commit. -/
theorem illegalWordCommitsIllegalCommand : Obligations.IllegalWordCommitsIllegalCommand := by
  intro s w rest hw hb ha
  rw [run_succ_of_next (step_acceptsWord hb ha), run_succ_of_next (step_commitsIllegalWord rfl hw rfl)]
  rfl

end Sys2Proof.Machine
end

section
/-! SUPPORT. What the primality test and GENPRIME's search decide, in the terms of the claims: strong liars and the
answers of the coming draws. -/

namespace Sys2Proof.Machine

/-! ### The answers of the coming draws (10_state.md R37) -/

theorem RandomSource.upcoming_mem (r : RandomSource) {lo hi : Nat} (h : lo ≤ hi) (k : Nat) :
    lo ≤ r.upcoming lo hi k ∧ r.upcoming lo hi k ≤ hi := by
  induction k generalizing r with
  | zero => exact r.draw_mem h
  | succ k ih => exact ih (r.draw lo hi).2

/-- Listed answers of the range are the values drawn, in their order. -/
theorem RandomSource.upcoming_listed {lo hi : Nat} {answers : List Nat} (drawn : Nat)
    (h : ∀ v ∈ answers, lo ≤ v ∧ v ≤ hi) {k : Nat} (hk : k < answers.length) :
    RandomSource.upcoming { answers, drawn } lo hi k = answers[k] := by
  induction answers generalizing drawn k with
  | nil => exact absurd hk (Nat.not_lt_zero k)
  | cons v rest ih =>
    obtain ⟨⟨hlo, hhi⟩, hrest⟩ := List.forall_mem_cons.1 h
    have hdraw := RandomSource.draw_listed rest drawn hlo hhi
    cases k with
    | zero => rw [RandomSource.upcoming, hdraw]; rfl
    | succ k =>
      rw [RandomSource.upcoming, hdraw, List.getElem_cons_succ]
      exact ih (drawn + 1) hrest (Nat.lt_of_succ_lt_succ hk)

/-! ### Strong liars (41_primality.md R100, R101) -/

/-- A number has at most one form 2^s · d with d odd. -/
theorem two_pow_mul_odd_inj {s s' d d' : Nat} (h : 2 ^ s * d = 2 ^ s' * d') (hd : d % 2 = 1) (hd' : d' % 2 = 1) :
    s = s' ∧ d = d' := by
  have hodd {k e : Nat} (he : e % 2 = 1) := Nat.ordCompl_pow_mul_of_not_dvd k Nat.prime_two (show ¬2 ∣ e by omega)
  obtain rfl : d = d' := by rw [← hodd (k := s) hd, h, hodd hd']
  exact ⟨Nat.pow_right_injective (Nat.le_refl 2) (Nat.eq_of_mul_eq_mul_right (by omega) h), rfl⟩

/-- The strong liars of n, by the one decomposition of n − 1. -/
theorem strongLiar_iff {n s d a : Nat} (e : n - 1 = 2 ^ s * d) (hd : d % 2 = 1) :
    StrongLiar n a ↔ a ^ d % n = 1 ∨ ∃ r < s, a ^ (2 ^ r * d) % n = n - 1 := by
  constructor
  · rintro ⟨s', d', e', hd', h⟩
    obtain ⟨rfl, rfl⟩ := two_pow_mul_odd_inj (e'.symm.trans e) hd' hd
    exact h
  · exact fun h => ⟨s, d, e, hd, h⟩

/-- The test's round passes for the strong liars: a^d is the power with r = 0, the k-th squaring the one with r = k. -/
theorem roundPasses_iff_strongLiar {n s d a : Nat} (e : n - 1 = 2 ^ s * d) (hd : d % 2 = 1) (hs : 1 ≤ s) :
    roundPasses n s d a = true ↔ StrongLiar n a := by
  obtain ⟨s, rfl⟩ : ∃ k, s = k + 1 := ⟨s - 1, by omega⟩
  rw [roundPasses_iff, strongLiar_iff e hd, Nat.exists_lt_succ_left]
  simp

/-- The square roots of 1 in a domain are 1 and −1: a repeated square that is 1 came from 1, or passed −1. -/
theorem eq_one_or_exists_eq_neg_one {R : Type} [CommRing R] [NoZeroDivisors R] {x : R} {s : Nat} (h : x ^ 2 ^ s = 1) :
    x = 1 ∨ ∃ r < s, x ^ 2 ^ r = -1 := by
  induction s with
  | zero => exact .inl (by simpa using h)
  | succ s ih =>
    rw [pow_succ, pow_mul, sq_eq_one_iff] at h
    rcases h with h | h
    · exact (ih h).imp_right fun ⟨r, hr, hx⟩ => ⟨r, by omega, hx⟩
    · exact .inr ⟨s, by omega, h⟩

theorem mod_eq_of_natCast_eq {n a b : Nat} (h : (a : ZMod n) = b) (hb : b < n) : a % n = b := by
  rw [(ZMod.natCast_eq_natCast_iff' a b n).1 h, Nat.mod_eq_of_lt hb]

/-- Every base that a prime does not divide is a strong liar of it: by Fermat a^(p − 1) = 1, and `ZMod p` is a field. -/
theorem strongLiar_of_prime {p a : Nat} (hp : p.Prime) (ha : ¬p ∣ a) : StrongLiar p a := by
  have : Fact p.Prime := ⟨hp⟩
  have hp1 := hp.one_lt
  obtain ⟨s, d, hd, e⟩ := Nat.exists_eq_two_pow_mul_odd (show p - 1 ≠ 0 by omega)
  refine ⟨s, d, e, Nat.odd_iff.1 hd, ?_⟩
  have hfermat : ((a : ZMod p) ^ d) ^ 2 ^ s = 1 := by
    rw [← pow_mul, Nat.mul_comm, ← e]
    exact ZMod.pow_card_sub_one_eq_one (by rwa [Ne, ZMod.natCast_eq_zero_iff])
  refine (eq_one_or_exists_eq_neg_one hfermat).imp (fun h => ?_) fun ⟨r, hr, h⟩ => ⟨r, hr, ?_⟩
  · exact mod_eq_of_natCast_eq (by simpa using h) hp1
  · refine mod_eq_of_natCast_eq ?_ (by omega)
    rw [Nat.cast_pow, Nat.mul_comm, pow_mul, h]
    simp [Nat.cast_sub hp1.le]

/-! ### The primality test (41_primality.md R100) -/

theorem mrRounds_accepts_iff (n s d rounds : Nat) (r : RandomSource) :
    (mrRounds n s d rounds r).1 = true ↔ ∀ k < rounds, roundPasses n s d (r.upcoming 2 (n - 2) k) = true := by
  induction rounds generalizing r with
  | zero => simp [mrRounds]
  | succ rounds ih =>
    have hfirst : r.upcoming 2 (n - 2) 0 = (r.drawWitness n).1 := rfl
    have hrest (k : Nat) : r.upcoming 2 (n - 2) (k + 1) = (r.drawWitness n).2.upcoming 2 (n - 2) k := rfl
    rw [Nat.forall_lt_succ_left, hfirst]
    simp only [hrest, ← ih, mrRounds]
    cases roundPasses n s d (r.drawWitness n).1 with
    | true => simp
    | false => simp

/-- The rounds take one draw each, and at least one is started. -/
theorem mrRounds_drawn (n s d rounds : Nat) (r : RandomSource) :
    r.drawn + min 1 rounds ≤ (mrRounds n s d rounds r).2.drawn ∧
      (mrRounds n s d rounds r).2.drawn ≤ r.drawn + rounds := by
  induction rounds generalizing r with
  | zero => simp [mrRounds]
  | succ rounds ih =>
    have hdraw : (r.drawWitness n).2.drawn = r.drawn + 1 := r.draw_drawn 2 (n - 2)
    have hrest := ih (r.drawWitness n).2
    rw [mrRounds]
    dsimp only
    split
    · omega
    · dsimp only; omega

/-- For odd n ≥ 5 the test accepts exactly when every draw is a strong liar; n − 1 is even, so s is not 0. -/
theorem millerRabin_accepts_iff {n : Nat} (rounds : Nat) (r : RandomSource) (h : 5 ≤ n) (h2 : n % 2 = 1) :
    (millerRabin rounds n r).1 = true ↔ ∀ k < rounds, StrongLiar n (r.upcoming 2 (n - 2) k) := by
  obtain ⟨s, d, e, hd, hm⟩ := millerRabin_odd rounds r h h2
  have hs : s ≠ 0 := by rintro rfl; omega
  simp only [hm, mrRounds_accepts_iff, roundPasses_iff_strongLiar e hd (Nat.one_le_iff_ne_zero.2 hs)]

/-- No draw of the test's range is divisible by a prime n, so all of them are strong liars (41_primality.md R101). -/
theorem millerRabin_accepts_prime {n : Nat} (rounds : Nat) (r : RandomSource) (hn : n.Prime) :
    (millerRabin rounds n r).1 = true := by
  have h2 := hn.two_le
  rcases Nat.lt_or_ge n 4 with h4 | h4
  · rw [millerRabin_two_three rounds r (by omega)]
  · have hodd : n % 2 = 1 := hn.eq_two_or_odd.resolve_left (by omega)
    refine (millerRabin_accepts_iff rounds r (by omega) hodd).2 fun k _ => strongLiar_of_prime hn ?_
    have hmem := r.upcoming_mem (show 2 ≤ n - 2 by omega) k
    exact Nat.not_dvd_of_pos_of_lt (by omega) (by omega)

/-- The numbers that the test rejects without a draw (41_primality.md R100, R102). -/
def TriviallyComposite (n : Nat) : Prop := n < 2 ∨ (4 ≤ n ∧ n % 2 = 0)

theorem millerRabin_of_triviallyComposite {n : Nat} (rounds : Nat) (r : RandomSource) (h : TriviallyComposite n) :
    millerRabin rounds n r = (false, r) := by
  rcases h with h | ⟨h4, h2⟩
  · exact millerRabin_small rounds r h
  · exact millerRabin_even rounds r h4 h2

/-! ### The composite 561 (41_primality.md R101, V-MR-8, V-MR-9): 560 = 2^4 · 35 -/

theorem strongLiar_561_50 : StrongLiar 561 50 := ⟨4, 35, by decide, by decide, .inr ⟨0, by decide, by decide⟩⟩

theorem not_strongLiar_561_2 : ¬StrongLiar 561 2 := by
  rw [← roundPasses_iff_strongLiar (s := 4) (d := 35) (by decide) (by decide) (by decide)]
  decide

/-! ### GENPRIME's search (41_primality.md R103) -/

theorem searchPrime_of_first_accepted {rounds b limit : Nat} {r : RandomSource} (hl : 1 ≤ limit)
    (h : (millerRabin rounds (r.drawCandidate b).1 (r.drawCandidate b).2).1 = true) :
    (searchPrime rounds b limit r).1 = some (r.drawCandidate b).1 := by
  obtain ⟨limit, rfl⟩ : ∃ k, limit = k + 1 := ⟨limit - 1, by omega⟩
  simp [searchPrime, h]

/-- Candidates rejected without a draw follow each other in the source, one draw each. -/
theorem searchPrime_of_triviallyComposite {rounds b limit : Nat} {r : RandomSource}
    (h : ∀ k < limit, TriviallyComposite (r.upcoming (2 ^ b) (2 ^ (b + 1) - 1) k)) :
    ∃ r', searchPrime rounds b limit r = (none, r') ∧ r'.drawn = r.drawn + limit := by
  induction limit generalizing r with
  | zero => exact ⟨r, rfl, rfl⟩
  | succ limit ih =>
    obtain ⟨hfirst, hrest⟩ := Nat.forall_lt_succ_left.1 h
    obtain ⟨r', hs, hd⟩ := ih (r := (r.drawCandidate b).2) hrest
    have hm := millerRabin_of_triviallyComposite rounds (r.drawCandidate b).2 (n := (r.drawCandidate b).1) hfirst
    have hdraw : (r.drawCandidate b).2.drawn = r.drawn + 1 := r.draw_drawn (2 ^ b) (2 ^ (b + 1) - 1)
    exact ⟨r', by simp [searchPrime, hm, hs], by omega⟩

end Sys2Proof.Machine
end

section
/-! SUPPORT. What MRTEST and GENPRIME do at their commit: the exact next state, its frame, and their claims. -/

namespace Sys2Proof.Machine

/-! ### MRTEST (41_primality.md R102) -/

/-- MRTEST with the outcome of its test, where its operand is not negative. -/
theorem exec_mrtest_of_test {n : Reg} {s : State} {accepted : Bool} {r : RandomSource} (hn : s.signBit n = false)
    (hm : millerRabin s.params.mrRounds (s.mag n) s.random = (accepted, r)) :
    exec (.mrtest n) s = .next ({ s with prime := accepted, random := r }.finish .ok) := by
  rcases exec_cases (.mrtest n) s with ⟨u, ⟨-, rfl⟩, he⟩ | ⟨r, e, ⟨hneg, -⟩, -⟩
  · rw [he, hm]
  · simp [hn] at hneg

/-- What every MRTEST of a non-negative operand does: the test decides PRIME, and nothing but the source moves. -/
theorem exec_mrtest_next {n : Reg} {s : State} (hn : s.signBit n = false) :
    ∃ t, exec (.mrtest n) s = .next t ∧ Committed t .ok ∧ Frame [] s t ∧ SameBuf s t ∧
      millerRabin s.params.mrRounds (s.mag n) s.random = (t.prime, t.random) :=
  ⟨_, exec_mrtest_of_test hn rfl, ⟨rfl, rfl, rfl⟩,
    ⟨fun _ _ => rfl, fun _ _ => rfl, rfl, rfl, rfl, rfl, rfl, rfl, rfl⟩, fun _ => rfl, rfl⟩

/-- Settles O36: the draws of the test of a prime are strong liars. -/
theorem mrtestAcceptsEveryPrime : Obligations.MrtestAcceptsEveryPrime := by
  intro n s hn hp
  obtain ⟨t, he, hc, hf, hb, hm⟩ := exec_mrtest_next hn
  have hprime := millerRabin_accepts_prime s.params.mrRounds s.random hp
  rw [hm] at hprime
  exact ⟨t, he, hc, hprime, hf, hb⟩

/-- Settles O37: the cases that the test decides before its first draw. -/
theorem mrtestTrivialCases : Obligations.MrtestTrivialCases := fun _ _ hn =>
  ⟨fun h => exec_mrtest_of_test hn (millerRabin_of_triviallyComposite _ _ h),
    fun h => exec_mrtest_of_test hn (millerRabin_two_three _ _ h)⟩

/-- Settles O38: the rounds of the test pass for strong liars, with one draw per round started. -/
theorem mrtestAcceptsWhenAllDrawsAreStrongLiars : Obligations.MrtestAcceptsWhenAllDrawsAreStrongLiars := by
  intro n s hn h5 hodd hrounds
  obtain ⟨t, he, hc, hf, hb, hm⟩ := exec_mrtest_next hn
  have hprime := millerRabin_accepts_iff s.params.mrRounds s.random h5 hodd
  obtain ⟨k, d, -, -, hrun⟩ := millerRabin_odd s.params.mrRounds s.random h5 hodd
  have hdrawn := mrRounds_drawn (s.mag n) k d s.params.mrRounds s.random
  rw [← hrun, hm, Nat.min_eq_left hrounds] at hdrawn
  rw [hm] at hprime
  exact ⟨t, he, hc, hf, hb, hprime, hdrawn⟩

/-- Settles O39: 50 in every round is accepted, 2 in the first is rejected. -/
theorem mrtestMayAcceptOrReject561 : Obligations.MrtestMayAcceptOrReject561 := by
  intro n s hn h561 hrounds
  have htest (r : RandomSource) : ∃ t, exec (.mrtest n) { s with random := r } = .next t ∧ Committed t .ok ∧
      (t.prime = true ↔ ∀ k < s.params.mrRounds, StrongLiar 561 (r.upcoming 2 559 k)) := by
    obtain ⟨t, he, hc, -, -, hprime, -⟩ := mrtestAcceptsWhenAllDrawsAreStrongLiars n { s with random := r } hn
      (h561.symm ▸ by decide) (h561.symm ▸ by decide) hrounds
    refine ⟨t, he, hc, hprime.trans ?_⟩
    rw [show State.mag { s with random := r } n = 561 from h561]
  constructor
  · obtain ⟨t, he, hc, hprime⟩ := htest { answers := List.replicate s.params.mrRounds 50, drawn := 0 }
    refine ⟨_, t, he, hc, hprime.2 fun k hk => ?_⟩
    rw [RandomSource.upcoming_listed 0 (fun v hv => by rw [List.eq_of_mem_replicate hv]; decide) (by simpa using hk),
      List.getElem_replicate]
    exact strongLiar_561_50
  · obtain ⟨t, he, hc, hprime⟩ := htest { answers := [2], drawn := 0 }
    exact ⟨_, t, he, hc, Bool.eq_false_iff.2 fun h => not_strongLiar_561_2 (hprime.1 h 0 hrounds)⟩

/-! ### GENPRIME (41_primality.md R103) -/

/-- A command that writes register d and the random source, and nothing else, keeps within the frame [d]. -/
theorem frame_setReg (s : State) (r : RandomSource) (d : Reg) (c : Nat) :
    Frame [d] s (({ s with random := r }.setReg d c false).finish .ok) where
  mag j hj := by rw [State.mag_finish, State.mag_setReg, if_neg (by simpa using hj)]; rfl
  signBit j hj := by rw [State.signBit_finish, State.signBit_setReg, if_neg (by simpa using hj)]; rfl
  params := rfl
  ie := rfl
  ovr := rfl
  cmd := rfl
  free := rfl
  agenda := rfl
  reads := rfl

/-- A command that fails keeps within every frame, whatever it drew. -/
theorem frame_failed (s : State) (r : RandomSource) (e : ErrorCode) (ds : List Reg) :
    Frame ds s ({ s with random := r }.failed e) :=
  ⟨fun _ _ => rfl, fun _ _ => rfl, rfl, rfl, rfl, rfl, rfl, rfl, rfl⟩

section
variable {d b : Reg} {s : State}

/-- GENPRIME writes the candidate that its search accepts. -/
theorem exec_genprime_found {c : Nat} {r : RandomSource} (hb : s.signBit b = false) (hw : s.mag b < s.params.w)
    (h : searchPrime s.params.mrRounds (s.mag b) s.params.primeSearchLimit s.random = (some c, r)) :
    exec (.genprime d b) s = .next (({ s with random := r }.setReg d c false).finish .ok) := by
  rcases exec_cases (.genprime d b) s with ⟨u, ⟨-, -, c', hc, rfl⟩, he⟩ | ⟨_, _, hraised, -⟩
  · rw [h] at hc he
    cases hc
    exact he
  · rcases hraised with ⟨hneg | hge, -⟩ | ⟨-, -, -, hnone, -⟩
    · simp [hb] at hneg
    · omega
    · simp [h] at hnone

/-- What a GENPRIME whose search accepts does: the candidate is written, and nothing else but the source moves. -/
theorem exec_genprime_next {c : Nat} {r : RandomSource} (hb : s.signBit b = false) (hw : s.mag b < s.params.w)
    (h : searchPrime s.params.mrRounds (s.mag b) s.params.primeSearchLimit s.random = (some c, r)) :
    ∃ t, exec (.genprime d b) s = .next t ∧ Committed t .ok ∧ t.mag d = c ∧ t.signBit d = false ∧ t.random = r ∧
      Frame [d] s t ∧ SameBuf s t ∧ t.prime = s.prime :=
  ⟨_, exec_genprime_found hb hw h, ⟨rfl, rfl, rfl⟩, by simp, by simp, rfl, frame_setReg s r d c, fun _ => rfl, rfl⟩

/-- GENPRIME fails where its search rejects all candidates; the draws stay taken (log entry 12). -/
theorem exec_genprime_none {r : RandomSource} (hb : s.signBit b = false) (hw : s.mag b < s.params.w)
    (h : searchPrime s.params.mrRounds (s.mag b) s.params.primeSearchLimit s.random = (none, r)) :
    exec (.genprime d b) s = .next ({ s with random := r }.failed .primeGenerationFailure) := by
  rcases exec_cases (.genprime d b) s with ⟨u, ⟨-, -, c, hc, -⟩, -⟩ | ⟨r', e, hraised, he⟩
  · simp [h] at hc
  · rcases hraised with ⟨hneg | hge, -⟩ | ⟨-, -, rfl, -, rfl⟩
    · simp [hb] at hneg
    · omega
    · rw [h] at he
      exact he

/-- GENPRIME with an exponent of W or more (41_primality.md R103). -/
theorem exec_genprime_of_width_le (hw : s.params.w ≤ s.mag b) :
    exec (.genprime d b) s = .next (s.failed .domainError) := by
  rcases exec_cases (.genprime d b) s with ⟨u, ⟨-, hlt, -⟩, -⟩ | ⟨r, e, ⟨-, rfl, rfl⟩ | ⟨-, hlt, -⟩, he⟩
  · omega
  · exact he
  · omega

end

/-- Settles O40: the search accepts after k rejected candidates, or rejects all. -/
theorem genprimeOutcome : Obligations.GenprimeOutcome := by
  intro d b s hb hw
  obtain ⟨k, r, hk, h⟩ :=
    searchPrime_cases s.params.mrRounds (s.mag b) s.params.primeSearchLimit s.random
  rcases h with ⟨hlt, haccepted, hs⟩ | ⟨hlimit, hs⟩
  · obtain ⟨t, he, hc, hmag, hsign, hrandom, hf, hbuf, hprime⟩ := exec_genprime_next (d := d) hb hw hs
    have hmem : 2 ^ s.mag b ≤ t.mag d ∧ t.mag d ≤ 2 ^ (s.mag b + 1) - 1 := hmag ▸ r.draw_mem (candidate_range _)
    have hpos := Nat.two_pow_pos (s.mag b + 1)
    have htest : millerRabin s.params.mrRounds (t.mag d) (r.drawCandidate (s.mag b)).2 = (true, t.random) := by
      rw [hmag, hrandom, ← haccepted]
    exact ⟨t, k, r, he, hf, hbuf, hprime, hk, .inl ⟨hlt, hc, hmag, htest, hmem.1, by omega, hsign⟩⟩
  · exact ⟨_, k, r, exec_genprime_none hb hw hs, frame_failed s r _ [d], fun _ => rfl, rfl, hk,
      .inr ⟨hlimit, ⟨rfl, rfl, rfl⟩, rfl, rfl, rfl⟩⟩

/-- Settles O41: the test accepts the prime whatever its witness draws. -/
theorem genprimeTakesAPrimeCandidate : Obligations.GenprimeTakesAPrimeCandidate := by
  intro d b s hb hw hl hp
  have hs := searchPrime_of_first_accepted hl (millerRabin_accepts_prime s.params.mrRounds _ hp)
  obtain ⟨t, he, hc, hmag, hsign, -, hf, hbuf, hprime⟩ := exec_genprime_next (d := d) hb hw (Prod.ext hs rfl)
  exact ⟨t, he, hc, hmag, hsign, hf, hbuf, hprime⟩

/-- Settles O42: the candidates are 1 alone for b = 0, and the primes 2 and 3 for b = 1. -/
theorem genprimeCornerCases : Obligations.GenprimeCornerCases := by
  intro d b s hb hlegal
  obtain ⟨⟨-, hw, -⟩, -, -, hl, -⟩ := hlegal
  refine ⟨exec_genprime_of_width_le, fun h0 => ?_, fun h1 => ?_⟩
  · obtain ⟨r, hs, hd⟩ := searchPrime_of_triviallyComposite (rounds := s.params.mrRounds) (b := s.mag b)
      (limit := s.params.primeSearchLimit) (r := s.random) fun k _ => by
        have hmem := s.random.upcoming_mem (candidate_range (s.mag b)) k
        rw [h0] at hmem ⊢
        exact .inl (by omega)
    exact ⟨r, exec_genprime_none hb (by omega) hs, hd⟩
  · have hmem : 2 ≤ (s.random.drawCandidate (s.mag b)).1 ∧ (s.random.drawCandidate (s.mag b)).1 ≤ 3 := by
      rw [h1]
      exact s.random.draw_mem (candidate_range 1)
    have hcandidate : (s.random.drawCandidate (s.mag b)).1 = 2 ∨ (s.random.drawCandidate (s.mag b)).1 = 3 := by omega
    obtain ⟨t, he, hc, hmag, hsign, hf, hbuf, -⟩ := genprimeTakesAPrimeCandidate d b s hb (by omega) hl (by
      rcases hcandidate with h | h <;> rw [h]
      · exact Nat.prime_two
      · exact Nat.prime_three)
    exact ⟨t, he, hc, hmag ▸ hcandidate, hsign, hf, hbuf⟩

/-- Settles O43: the candidates are 4 or more, and an even one is rejected without a draw. -/
theorem genprimeFailsOnEvenCandidates : Obligations.GenprimeFailsOnEvenCandidates := by
  intro d b s hb h2 hw heven
  obtain ⟨r, hs, -⟩ := searchPrime_of_triviallyComposite (rounds := s.params.mrRounds) (b := s.mag b)
    (limit := s.params.primeSearchLimit) (r := s.random) fun k hk => by
      have hmem := s.random.upcoming_mem (candidate_range (s.mag b)) k
      have h4 : 2 ^ 2 ≤ 2 ^ s.mag b := Nat.pow_le_pow_right (by decide) h2
      exact .inr ⟨h4.trans hmem.1, heven k hk⟩
  exact ⟨r, exec_genprime_none hb hw hs⟩

end Sys2Proof.Machine
end

section
/-! SUPPORT. What EGCD and MODINV compute and leave at their commit, and their claims. -/

namespace Sys2Proof.Machine

/-! ### Writes of several registers -/

theorem Frame.refl (ds : List Reg) (s : State) : Frame ds s s :=
  ⟨fun _ _ => rfl, fun _ _ => rfl, rfl, rfl, rfl, rfl, rfl, rfl, rfl⟩

/-- The write of a register of the frame keeps within it. -/
theorem Frame.setReg {ds : List Reg} {s u : State} (h : Frame ds s u) {i : Reg} (hi : i ∈ ds) (v : Nat) (b : Bool) :
    Frame ds s (u.setReg i v b) :=
  { h with
    mag := fun j hj => by rw [State.mag_setReg, if_neg (ne_of_mem_of_not_mem hi hj).symm, h.mag j hj]
    signBit := fun j hj => by rw [State.signBit_setReg, if_neg (ne_of_mem_of_not_mem hi hj).symm, h.signBit j hj] }

/-- The end of a commit keeps within every frame. -/
theorem Frame.finish {ds : List Reg} {s u : State} (h : Frame ds s u) (e : ErrorCode) : Frame ds s (u.finish e) :=
  { h with }

@[simp] theorem State.val_finish (s : State) (e : ErrorCode) (i : Reg) : (s.finish e).val i = s.val i := rfl

theorem State.natAbs_val (s : State) (i : Reg) : (s.val i).natAbs = s.mag i := by
  unfold State.val
  split <;> simp

theorem State.val_setReg_false (s : State) (i : Reg) (v : Nat) : (s.setReg i v false).val i = v := by
  simp [State.val]

theorem State.val_setReg_of_ne (s : State) {i j : Reg} (h : j ≠ i) (v : Nat) (b : Bool) :
    (s.setReg i v b).val j = s.val j := by
  simp [State.val, h]

theorem State.val_writeXs_of_ne (s : State) {i j : Reg} (h : j ≠ i) (v : Int) : (s.writeXs i v).val j = s.val j :=
  s.val_setReg_of_ne h _ _

/-! ### The recursion of the greatest common divisor (42_euclid.md R120) -/

/-- The recursion of R120 has one solution. -/
theorem eq_egcd_of_recursion {f : Nat → Nat → Nat × Int × Int} (hzero : ∀ b, f 0 b = (b, 0, 1))
    (hstep : ∀ a b, a ≠ 0 →
      f a b = ((f (b % a) a).1, (f (b % a) a).2.2 - ((b / a : Nat) : Int) * (f (b % a) a).2.1, (f (b % a) a).2.1))
    (a b : Nat) : f a b = egcd a b := by
  induction a using Nat.strong_induction_on generalizing b with
  | _ a ih =>
    by_cases h : a = 0
    · subst h
      exact hzero b
    · rw [hstep a b h, egcd_of_ne_zero b h, ih _ (Nat.mod_lt b (Nat.pos_of_ne_zero h))]

/-- The identity of Bézout: one call passes a·x + b·y = g on, since b = a·(b / a) + b mod a. -/
theorem egcd_bezout (a b : Nat) : (a : Int) * (egcd a b).2.1 + b * (egcd a b).2.2 = (egcd a b).1 := by
  induction a using Nat.strong_induction_on generalizing b with
  | _ a ih =>
    by_cases h : a = 0
    · subst h
      simp [egcd_zero]
    · have hb : (a : Int) * ((b / a : Nat) : Int) + ((b % a : Nat) : Int) = b := by exact_mod_cast Nat.div_add_mod b a
      rw [egcd_of_ne_zero b h]
      linear_combination ih (b % a) (Nat.mod_lt b (Nat.pos_of_ne_zero h)) a - (egcd (b % a) a).2.1 * hb

/-! ### EGCD (42_euclid.md R122) -/

/-- What EGCD with distinct destinations does to non-negative operands: the triple of `egcd` is written, and nothing
else. -/
theorem exec_egcd_next {g x y a b : Reg} {s : State} (hgx : g ≠ x) (hgy : g ≠ y) (hxy : x ≠ y)
    (ha : s.signBit a = false) (hb : s.signBit b = false) :
    ∃ t, exec (.egcd g x y a b) s = .next t ∧ Committed t .ok ∧
      t.val g = (egcd (s.mag a) (s.mag b)).1 ∧ t.signBit g = false ∧
      t.val x = (egcd (s.mag a) (s.mag b)).2.1 ∧ t.val y = (egcd (s.mag a) (s.mag b)).2.2 ∧
      Frame [g, x, y] s t ∧ SameBuf s t ∧ t.prime = s.prime ∧ t.random = s.random := by
  rcases exec_cases (.egcd g x y a b) s with ⟨u, ⟨-, -, -, rfl⟩, he⟩ | ⟨r, e, ⟨-, hraised⟩, -⟩
  · refine ⟨_, he, ⟨rfl, rfl, rfl⟩, ?_, ?_, ?_, ?_, ?_, fun _ => rfl, rfl, rfl⟩
    · rw [State.val_finish, State.val_writeXs_of_ne _ hgy, State.val_writeXs_of_ne _ hgx, State.val_setReg_false]
    · simp [hgx, hgy]
    · rw [State.val_finish, State.val_writeXs_of_ne _ hxy, State.val_writeXs]
    · rw [State.val_finish, State.val_writeXs]
    · exact ((((Frame.refl _ s).setReg (by simp) _ _).setReg (by simp) _ _).setReg (by simp) _ _).finish .ok
  · rcases hraised with ⟨hequal, -⟩ | ⟨-, hneg | hneg, -⟩
    · exact absurd ⟨hgx, hgy, hxy⟩ hequal
    · simp [ha] at hneg
    · simp [hb] at hneg

/-- Settles O44: the recursion has one solution, and EGCD writes it. -/
theorem egcdWritesTheRecursionsTriple : Obligations.EgcdWritesTheRecursionsTriple := by
  intro f hzero hstep g x y a b s hgx hgy hxy ha hb
  rw [eq_egcd_of_recursion hzero hstep]
  exact exec_egcd_next hgx hgy hxy ha hb

/-- Settles O45, from the gcd, the identity and the bounds of the triple. -/
theorem egcdGivesBezoutCoefficients : Obligations.EgcdGivesBezoutCoefficients := by
  intro g x y a b s hgx hgy hxy ha hb
  obtain ⟨t, he, hc, hg, -, hx, hy, -⟩ := exec_egcd_next hgx hgy hxy ha hb
  obtain ⟨hxle, hyle⟩ := egcd_coefficients_le (s.mag a) (s.mag b)
  rw [← hx, State.natAbs_val] at hxle
  rw [← hy, State.natAbs_val] at hyle
  refine ⟨t, he, hc, ?_, ?_, hxle, hyle⟩
  · rw [hg, egcd_gcd]
  · rw [hx, hy, hg, egcd_bezout]

/-! ### MODINV (42_euclid.md R123) -/

/-- The inverse that MODINV takes from the triple of `egcd`. -/
theorem egcd_inverse {e phi : Nat} (hphi : phi ≠ 0) (hg : Nat.gcd e phi = 1) :
    ((egcd e phi).2.1 % (phi : Int)).toNat < phi ∧ e * ((egcd e phi).2.1 % (phi : Int)).toNat % phi = 1 % phi := by
  have hpos : (0 : Int) < phi := by omega
  have hd : ((((egcd e phi).2.1 % (phi : Int)).toNat : Nat) : Int) = (egcd e phi).2.1 % phi :=
    Int.toNat_of_nonneg (Int.emod_nonneg _ hpos.ne')
  refine ⟨(Int.toNat_lt_of_ne_zero hphi).2 (Int.emod_lt_of_pos _ hpos), ?_⟩
  have hbezout : (e : Int) * (egcd e phi).2.1 + phi * (egcd e phi).2.2 = 1 := by
    rw [egcd_bezout, egcd_gcd, hg, Nat.cast_one]
  have hmod : (e : Int) * ((egcd e phi).2.1 % phi) % phi = 1 % phi :=
    calc (e : Int) * ((egcd e phi).2.1 % phi) % phi
      _ = e * (egcd e phi).2.1 % phi := (Int.mod_modEq _ _).mul_left _
      _ = (e * (egcd e phi).2.1 + phi * (egcd e phi).2.2) % phi := (Int.add_mul_emod_self_left _ _ _).symm
      _ = 1 % phi := by rw [hbezout]
  rw [← hd] at hmod
  exact_mod_cast hmod

section
variable {d e phi : Reg} {s : State}

/-- MODINV writes the inverse where the operands are coprime. -/
theorem exec_modinv_coprime (he : s.signBit e = false) (hp : s.signBit phi = false) (hphi : s.mag phi ≠ 0)
    (hg : Nat.gcd (s.mag e) (s.mag phi) = 1) :
    exec (.modinv d e phi) s =
      .next ((s.setReg d ((egcd (s.mag e) (s.mag phi)).2.1 % (s.mag phi : Int)).toNat false).finish .ok) := by
  rcases exec_cases (.modinv d e phi) s with ⟨u, ⟨-, -, -, -, rfl⟩, hexec⟩ | ⟨r, c, ⟨-, hraised⟩, -⟩
  · exact hexec
  · rcases hraised with ⟨hneg | hneg | hzero, -⟩ | ⟨-, -, -, hne, -⟩
    · simp [he] at hneg
    · simp [hp] at hneg
    · exact absurd hzero hphi
    · exact absurd ((egcd_gcd _ _).trans hg) hne

/-- MODINV by 0. -/
theorem exec_modinv_zero (hphi : s.mag phi = 0) : exec (.modinv d e phi) s = .next (s.failed .domainError) := by
  rcases exec_cases (.modinv d e phi) s with ⟨u, ⟨-, -, hne, -⟩, -⟩ | ⟨r, c, ⟨rfl, hraised⟩, hexec⟩
  · exact absurd hphi hne
  · rcases hraised with ⟨-, rfl⟩ | ⟨-, -, hne, -⟩
    · exact hexec
    · exact absurd hphi hne

/-- MODINV of operands with a common factor. -/
theorem exec_modinv_not_coprime (he : s.signBit e = false) (hp : s.signBit phi = false) (hphi : s.mag phi ≠ 0)
    (hg : Nat.gcd (s.mag e) (s.mag phi) ≠ 1) :
    exec (.modinv d e phi) s = .next (s.failed .inverseNotFound) := by
  rcases exec_cases (.modinv d e phi) s with ⟨u, ⟨-, -, -, hone, -⟩, -⟩ | ⟨r, c, ⟨rfl, hraised⟩, hexec⟩
  · exact absurd ((egcd_gcd _ _).symm.trans hone) hg
  · rcases hraised with ⟨hneg | hneg | hzero, -⟩ | ⟨-, -, -, -, rfl⟩
    · simp [he] at hneg
    · simp [hp] at hneg
    · exact absurd hzero hphi
    · exact hexec

end

/-- Settles O46: the first coefficient, reduced modulo phi, is the inverse. -/
theorem modinvGivesTheInverse : Obligations.ModinvGivesTheInverse := by
  intro d e phi s he hp hphi hg
  obtain ⟨hlt, hinverse⟩ := egcd_inverse hphi hg
  exact ⟨_, exec_modinv_coprime he hp hphi hg, ⟨rfl, rfl, rfl⟩, by simpa using hlt, by simpa using hinverse, by simp,
    frame_setReg s s.random d _, fun _ => rfl, rfl, rfl⟩

/-- Settles O47: the two checks after the sign checks. -/
theorem modinvErrors : Obligations.ModinvErrors := fun _ _ _ _ he hp =>
  ⟨exec_modinv_zero, exec_modinv_not_coprime he hp⟩

end Sys2Proof.Machine
end

section
/-! SUPPORT. What MODEXP does at its commit: the exact next state in each case, and its claims. -/

namespace Sys2Proof.Machine

section
variable {d base exp mod : Reg} {s : State}

/-- MODEXP of operands that pass its checks writes the power (43_modexp.md R142), and nothing else. -/
theorem exec_modexp_power (hb : s.signBit base = false) (he : s.signBit exp = false) (hm : s.signBit mod = false)
    (hmod : s.mag mod ≠ 0) :
    exec (.modexp d base exp mod) s =
      .next ((s.setReg d (s.mag base ^ s.mag exp % s.mag mod) false).finish .ok) := by
  rcases exec_cases (.modexp d base exp mod) s with ⟨u, ⟨-, -, -, -, rfl⟩, hexec⟩ | ⟨r, c, ⟨-, -, hraised⟩, -⟩
  · rwa [modExp_eq_pow] at hexec
  · rcases hraised with hneg | hneg | hneg | hzero
    · simp [hb] at hneg
    · simp [he] at hneg
    · simp [hm] at hneg
    · exact absurd hzero hmod

/-- MODEXP of a negative operand or by 0 (43_modexp.md R140). -/
theorem exec_modexp_domainError
    (h : s.signBit base = true ∨ s.signBit exp = true ∨ s.signBit mod = true ∨ s.mag mod = 0) :
    exec (.modexp d base exp mod) s = .next (s.failed .domainError) := by
  rcases exec_cases (.modexp d base exp mod) s with ⟨u, ⟨hb, he, hm, hmod, -⟩, -⟩ | ⟨r, c, ⟨rfl, rfl, -⟩, hexec⟩
  · simp [hb, he, hm, hmod] at h
  · exact hexec

end

/-- Settles O48: the loop computes the power, and MODEXP writes it. -/
theorem modexpIsThePowerModuloM : Obligations.ModexpIsThePowerModuloM := by
  intro d base exp mod s hb he hm hmod
  exact ⟨_, exec_modexp_power hb he hm (Nat.ne_of_gt hmod), ⟨rfl, rfl, rfl⟩, by simp, by simp,
    frame_setReg s s.random d _, fun _ => rfl, rfl, rfl⟩

/-- Settles O49: the check of the modulus ends with the code that the sign checks before it report. -/
theorem modexpZeroModulusIsDomainError : Obligations.ModexpZeroModulusIsDomainError := by
  intro d base exp mod s hmod
  exact exec_modexp_domainError (.inr (.inr (.inr hmod)))

/-- Settles O50: the operands decide whether the checks pass, and the power that is then written. -/
theorem modexpDependsOnItsOperandsOnly : Obligations.ModexpDependsOnItsOperandsOnly := by
  intro d base exp mod s s' hagree
  obtain ⟨hbm, hbs⟩ := hagree base (by simp)
  obtain ⟨hem, hes⟩ := hagree exp (by simp)
  obtain ⟨hmm, hms⟩ := hagree mod (by simp)
  by_cases h : s.signBit base = true ∨ s.signBit exp = true ∨ s.signBit mod = true ∨ s.mag mod = 0
  · have h' : s'.signBit base = true ∨ s'.signBit exp = true ∨ s'.signBit mod = true ∨ s'.mag mod = 0 := by
      rwa [← hbs, ← hes, ← hms, ← hmm]
    exact ⟨_, _, exec_modexp_domainError h, exec_modexp_domainError h', rfl, nofun⟩
  · simp only [not_or, Bool.not_eq_true] at h
    obtain ⟨hb, he, hm, hmod⟩ := h
    have hexec' := exec_modexp_power (d := d) (hbs ▸ hb) (hes ▸ he) (hms ▸ hm) (hmm ▸ hmod)
    rw [← hbm, ← hem, ← hmm] at hexec'
    exact ⟨_, _, exec_modexp_power hb he hm hmod, hexec', rfl, fun _ => by simp⟩

end Sys2Proof.Machine
end

section
/-! SUPPORT. Well-formed UTF-8 (44_block_codec.md R165): the scan over the table's rows accepts the concatenations of
their byte sequences, and those sequences are the encodings of single characters. -/

namespace Sys2Proof.Machine

/-! ### One row of the table -/

theorem ByteRange.has_iff (r : ByteRange) (b : Byte) : r.has b = true ↔ r.lo ≤ b.toNat ∧ b.toNat ≤ r.hi := by
  simp [ByteRange.has]

theorem stripRow_eq_some_iff (row : List ByteRange) (s rest : List Byte) :
    stripRow row s = some rest ↔ ∃ p, List.Forall₂ (fun r b => r.has b = true) row p ∧ s = p ++ rest := by
  induction row generalizing s with
  | nil => simp [stripRow]
  | cons r row ih =>
    cases s with
    | nil => simp [stripRow, List.forall₂_cons_left_iff]
    | cons b s => by_cases hb : r.has b = true <;> simp [stripRow, List.forall₂_cons_left_iff, ih, hb]

/-- The first bytes of a row lie below those of the other. -/
def rowBefore : List ByteRange → List ByteRange → Bool
  | r :: _, r' :: _ => r.hi < r'.lo
  | _, _ => false

/-- The rows stand in the order of their first bytes, so that at most one fits a string. -/
theorem utf8Rows_ordered : utf8Rows.Pairwise fun row row' => rowBefore row row' = true := by decide

/-- A string that begins with a sequence of a row begins with none of an earlier row: its first byte is too large. -/
theorem stripRow_eq_none_of_before {row row' : List ByteRange} {p : List Byte} (h : rowBefore row row' = true)
    (hp : List.Forall₂ (fun r b => r.has b = true) row' p) (rest : List Byte) : stripRow row (p ++ rest) = none := by
  match row, hp with
  | r :: _, .cons (a := r') (b := b) hb _ =>
    have hlt : r.hi < r'.lo := by simpa [rowBefore] using h
    have hge : r'.lo ≤ b.toNat := ((r'.has_iff b).1 hb).1
    rw [List.cons_append, stripRow, if_neg (by rw [r.has_iff]; omega)]

/-- The search over ordered rows finds the row that fits, whatever follows its sequence. -/
theorem findSome?_stripRow {rows : List (List ByteRange)}
    (hrows : rows.Pairwise fun row row' => rowBefore row row' = true) {row : List ByteRange} (hrow : row ∈ rows)
    {p : List Byte} (hp : List.Forall₂ (fun r b => r.has b = true) row p) (rest : List Byte) :
    rows.findSome? (fun row => stripRow row (p ++ rest)) = some rest := by
  induction hrows with
  | nil => cases hrow
  | cons hbefore _ ih =>
    rw [List.findSome?_cons]
    rcases List.mem_cons.1 hrow with rfl | hrow
    · rw [(stripRow_eq_some_iff _ _ rest).2 ⟨p, hp, rfl⟩]
    · rw [stripRow_eq_none_of_before (hbefore _ hrow) hp]
      exact ih hrow

/-! ### The scan -/

theorem Utf8Sequence.ne_nil {p : List Byte} (h : Utf8Sequence p) : p ≠ [] := by
  rintro rfl
  obtain ⟨row, hrow, hp⟩ := h
  cases hp
  revert hrow
  decide

theorem utf8Scan_nil (fuel : Nat) : utf8Scan fuel [] = true := by
  cases fuel <;> rfl

/-- The scan takes one sequence off the front of a string. -/
theorem utf8Scan_append {p : List Byte} (hp : Utf8Sequence p) (fuel : Nat) (rest : List Byte) :
    utf8Scan (fuel + 1) (p ++ rest) = utf8Scan fuel rest := by
  obtain ⟨b, tail, rfl⟩ := List.exists_cons_of_ne_nil hp.ne_nil
  obtain ⟨row, hrow, hfit⟩ := hp
  have hfind := findSome?_stripRow utf8Rows_ordered hrow hfit rest
  rw [List.cons_append] at hfind ⊢
  rw [utf8Scan, hfind]

theorem utf8Scan_flatten {parts : List (List Byte)} (h : ∀ p ∈ parts, Utf8Sequence p) {fuel : Nat}
    (hf : parts.flatten.length ≤ fuel) : utf8Scan fuel parts.flatten = true := by
  induction parts generalizing fuel with
  | nil => exact utf8Scan_nil fuel
  | cons p parts ih =>
    obtain ⟨hp, hparts⟩ := List.forall_mem_cons.1 h
    have hpos := List.length_pos_iff.2 hp.ne_nil
    rw [List.flatten_cons, List.length_append] at hf
    obtain ⟨fuel, rfl⟩ : ∃ k, fuel = k + 1 := ⟨fuel - 1, by omega⟩
    rw [List.flatten_cons, utf8Scan_append hp]
    exact ih hparts (by omega)

theorem exists_parts_of_utf8Scan {fuel : Nat} {s : List Byte} (h : utf8Scan fuel s = true) :
    ∃ parts : List (List Byte), s = parts.flatten ∧ ∀ p ∈ parts, Utf8Sequence p := by
  induction fuel generalizing s with
  | zero => exact ⟨[], List.isEmpty_iff.1 h, nofun⟩
  | succ fuel ih =>
    cases s with
    | nil => exact ⟨[], rfl, nofun⟩
    | cons b s =>
      rw [utf8Scan] at h
      split at h
      · next rest hfind =>
        obtain ⟨row, hrow, hstrip⟩ := List.exists_of_findSome?_eq_some hfind
        obtain ⟨p, hp, e⟩ := (stripRow_eq_some_iff _ _ _).1 hstrip
        obtain ⟨parts, rfl, hparts⟩ := ih h
        exact ⟨p :: parts, e, List.forall_mem_cons.2 ⟨⟨row, hrow, hp⟩, hparts⟩⟩
      · cases h

/-- Settles O59: the scan takes the sequences off one by one, and the string's length is fuel enough for them. -/
theorem utf8IsConcatenationOfTableRows : Obligations.Utf8IsConcatenationOfTableRows := by
  refine fun s => ⟨exists_parts_of_utf8Scan, ?_⟩
  rintro ⟨parts, rfl, hparts⟩
  exact utf8Scan_flatten hparts (Nat.le_refl _)

/-! ### Sequences and characters -/

/-- The sequences of the table with the rows of one length taken together: a first byte, then bytes 0x80 to 0xBF, of
which the second is bounded further after 0xE0 and 0xF0 (no overlong form), 0xED (no surrogate) and 0xF4 (no value above
U+10FFFF). -/
def Utf8Shape : List Byte → Prop
  | [b] => b.toNat ≤ 0x7F
  | [b, c] => (0xC2 ≤ b.toNat ∧ b.toNat ≤ 0xDF) ∧ (0x80 ≤ c.toNat ∧ c.toNat ≤ 0xBF)
  | [b, c, d] =>
    (0xE0 ≤ b.toNat ∧ b.toNat ≤ 0xEF) ∧ (0x80 ≤ c.toNat ∧ c.toNat ≤ 0xBF) ∧ (0x80 ≤ d.toNat ∧ d.toNat ≤ 0xBF) ∧
      (b.toNat = 0xE0 → 0xA0 ≤ c.toNat) ∧ (b.toNat = 0xED → c.toNat ≤ 0x9F)
  | [b, c, d, e] =>
    (0xF0 ≤ b.toNat ∧ b.toNat ≤ 0xF4) ∧ (0x80 ≤ c.toNat ∧ c.toNat ≤ 0xBF) ∧ (0x80 ≤ d.toNat ∧ d.toNat ≤ 0xBF) ∧
      (0x80 ≤ e.toNat ∧ e.toNat ≤ 0xBF) ∧ (b.toNat = 0xF0 → 0x90 ≤ c.toNat) ∧ (b.toNat = 0xF4 → c.toNat ≤ 0x8F)
  | _ => False

theorem utf8Sequence_iff_shape (p : List Byte) : Utf8Sequence p ↔ Utf8Shape p := by
  unfold Utf8Sequence utf8Rows
  match p with
  | [] => simp [Utf8Shape]
  | [b] => simp [Utf8Shape, ByteRange.has_iff]
  | [b, c] => simp [Utf8Shape, ByteRange.has_iff]
  | [b, c, d] => simp [Utf8Shape, ByteRange.has_iff]; omega
  | [b, c, d, e] => simp [Utf8Shape, ByteRange.has_iff]; omega
  | _ :: _ :: _ :: _ :: _ :: _ => simp [Utf8Shape]

/-- The bytes of the character with scalar value v. -/
def scalarBytes (v : Nat) : List Byte :=
  if v ≤ 0x7F then [BitVec.ofNat 8 v]
  else if v ≤ 0x7FF then [BitVec.ofNat 8 (v / 64 % 32 + 0xC0), BitVec.ofNat 8 (v % 64 + 0x80)]
  else if v ≤ 0xFFFF then
    [BitVec.ofNat 8 (v / 4096 % 16 + 0xE0), BitVec.ofNat 8 (v / 64 % 64 + 0x80), BitVec.ofNat 8 (v % 64 + 0x80)]
  else
    [BitVec.ofNat 8 (v / 262144 % 8 + 0xF0), BitVec.ofNat 8 (v / 4096 % 64 + 0x80), BitVec.ofNat 8 (v / 64 % 64 + 0x80),
      BitVec.ofNat 8 (v % 64 + 0x80)]

theorem map_toBitVec_utf8EncodeChar (c : Char) :
    (String.utf8EncodeChar c).map UInt8.toBitVec = scalarBytes c.val.toNat := by
  simp only [String.utf8EncodeChar, scalarBytes, apply_ite (List.map UInt8.toBitVec)]
  rfl

theorem utf8Shape_scalarBytes {v : Nat} (h : v.isValidChar) : Utf8Shape (scalarBytes v) := by
  have hvalid : v < 0xD800 ∨ (0xDFFF < v ∧ v < 0x110000) := h
  unfold scalarBytes
  split
  · simp only [Utf8Shape, BitVec.toNat_ofNat]; omega
  · split
    · simp only [Utf8Shape, BitVec.toNat_ofNat]; omega
    · split
      · simp only [Utf8Shape, BitVec.toNat_ofNat]; omega
      · simp only [Utf8Shape, BitVec.toNat_ofNat]; omega

/-- The scalar value is read off the payload bits of the bytes. -/
theorem exists_scalarBytes_eq {p : List Byte} (h : Utf8Shape p) : ∃ v : Nat, v.isValidChar ∧ scalarBytes v = p := by
  match p, h with
  | [b], (hb : b.toNat ≤ 0x7F) =>
    refine ⟨b.toNat, .inl (by omega), ?_⟩
    rw [scalarBytes, if_pos hb, BitVec.ofNat_toNat, BitVec.setWidth_eq]
  | [b, c], ⟨hb, hc⟩ =>
    refine ⟨(b.toNat - 0xC0) * 64 + (c.toNat - 0x80), .inl (by omega), ?_⟩
    rw [scalarBytes, if_neg (by omega), if_pos (by omega)]
    simp only [List.cons.injEq, ← BitVec.toNat_inj, BitVec.toNat_ofNat, and_true]
    omega
  | [b, c, d], ⟨hb, hc, hd, hoverlong, hsurrogate⟩ =>
    refine ⟨(b.toNat - 0xE0) * 4096 + (c.toNat - 0x80) * 64 + (d.toNat - 0x80), show _ ∨ _ by omega, ?_⟩
    rw [scalarBytes, if_neg (by omega), if_neg (by omega), if_pos (by omega)]
    simp only [List.cons.injEq, ← BitVec.toNat_inj, BitVec.toNat_ofNat, and_true]
    omega
  | [b, c, d, e], ⟨hb, hc, hd, he, hoverlong, hlast⟩ =>
    refine ⟨(b.toNat - 0xF0) * 262144 + (c.toNat - 0x80) * 4096 + (d.toNat - 0x80) * 64 + (e.toNat - 0x80),
      show _ ∨ _ by omega, ?_⟩
    rw [scalarBytes, if_neg (by omega), if_neg (by omega), if_neg (by omega)]
    simp only [List.cons.injEq, ← BitVec.toNat_inj, BitVec.toNat_ofNat, and_true]
    omega

theorem exists_char_of_isValidChar {v : Nat} (h : v.isValidChar) : ∃ c : Char, c.val.toNat = v :=
  ⟨Char.ofNat v, by rw [Char.ofNat, dif_pos h]; rfl⟩

/-- A sequence of the table is the encoding of a character. -/
theorem utf8Sequence_iff_encodedChar (p : List Byte) :
    Utf8Sequence p ↔ ∃ c : Char, (String.utf8EncodeChar c).map UInt8.toBitVec = p := by
  simp only [utf8Sequence_iff_shape, map_toBitVec_utf8EncodeChar]
  constructor
  · intro h
    obtain ⟨v, hv, rfl⟩ := exists_scalarBytes_eq h
    obtain ⟨c, rfl⟩ := exists_char_of_isValidChar hv
    exact ⟨c, rfl⟩
  · rintro ⟨c, rfl⟩
    exact utf8Shape_scalarBytes c.valid

theorem forall_utf8Sequence_iff_encodedText (parts : List (List Byte)) :
    (∀ p ∈ parts, Utf8Sequence p) ↔
      ∃ text : List Char, text.map (fun c => (String.utf8EncodeChar c).map UInt8.toBitVec) = parts := by
  simp only [utf8Sequence_iff_encodedChar]
  exact (Set.ext_iff.1 (Set.range_list_map _) parts).symm

/-- Settles O60: by O59, since the sequences of the table are the encodings of the characters. -/
theorem utf8WellFormedIsEncodedText : Obligations.Utf8WellFormedIsEncodedText := by
  intro s
  simp only [utf8IsConcatenationOfTableRows s, forall_utf8Sequence_iff_encodedText, List.flatMap_def]
  constructor
  · rintro ⟨_, rfl, text, rfl⟩
    exact ⟨text, rfl⟩
  · rintro ⟨text, rfl⟩
    exact ⟨_, rfl, text, rfl⟩

end Sys2Proof.Machine
end

section
/-! SUPPORT. What BLKSIZE, ENCODE and DECODE do at their commit: the exact next state in each case, and their claims. -/

namespace Sys2Proof.Machine

/-! ### BLKSIZE (44_block_codec.md R160, R161) -/

theorem blockIntSize_of_lt {n : Nat} (h : n < 128) : blockIntSize n = -1 := by
  have hle : bitlen n ≤ 7 := (bitlen_le_iff n 7).2 h
  unfold blockIntSize
  omega

theorem blockIntSize_of_range {n k : Nat} (hk : 1 ≤ k) (hlo : 2 ^ (8 * k - 1) ≤ n) (hhi : n < 2 ^ (8 * k + 7)) :
    blockIntSize n = ((k - 1 : Nat) : Int) := by
  have hle : bitlen n ≤ 8 * k + 7 := (bitlen_le_iff n _).2 hhi
  have hge : ¬bitlen n ≤ 8 * k - 1 := fun h => Nat.not_lt.2 hlo ((bitlen_le_iff n _).1 h)
  unfold blockIntSize
  omega

/-- A modulus exceeds every block of at most its block size. -/
theorem pow_le_of_le_blockIntSize {n L : Nat} (h : (L : Int) ≤ blockIntSize n) : 256 ^ L ≤ n := by
  have hbits : 8 * L < bitlen n := by
    unfold blockIntSize at h
    omega
  rw [show (256 : Nat) ^ L = 2 ^ (8 * L) by rw [pow_mul]; rfl]
  exact Nat.not_lt.1 fun hlt => Nat.not_le.2 hbits ((bitlen_le_iff n _).2 hlt)

theorem exec_blksize_of_nonneg {d n : Reg} {s : State} (hn : s.signBit n = false) :
    exec (.blksize d n) s = .next ((s.writeXs d (blockIntSize (s.mag n))).finish .ok) := by
  rcases exec_cases (.blksize d n) s with ⟨u, ⟨-, rfl⟩, hexec⟩ | ⟨r, e, ⟨-, -, hneg⟩, -⟩
  · exact hexec
  · simp [hn] at hneg

/-- Settles O52: the block size on each range of n, as BLKSIZE writes it. -/
theorem blksizeGivesTheBlockSize : Obligations.BlksizeGivesTheBlockSize := by
  intro d n s hn
  refine ⟨_, exec_blksize_of_nonneg hn, ⟨rfl, rfl, rfl⟩, fun hsmall => ?_, fun k hk hlo hhi => ?_,
    ((Frame.refl [d] s).setReg (by simp) _ _).finish .ok, fun _ => rfl, rfl, rfl⟩
  · rw [blockIntSize_of_lt hsmall, State.val_finish, State.val_writeXs]
    simp
  · rw [blockIntSize_of_range hk hlo hhi]
    simp

/-! ### ENCODE (44_block_codec.md R163) -/

theorem State.blockValue_lt (s : State) (off L : Nat) : s.blockValue off L < 256 ^ L := by
  simpa [State.blockValue_eq_beInt] using beInt_lt (s.buf.readBytes off L)

section
variable {d n len off : Reg} {s : State}

/-- ENCODE outside its domain. -/
theorem exec_encode_domainError (h : s.params.w / 8 < s.mag len ∨ s.params.bufBytes < s.mag off + s.mag len) :
    exec (.encode d n len off) s = .next (s.failed .domainError) := by
  rcases exec_cases (.encode d n len off) s with ⟨u, ⟨-, -, -, hlen, hrange, -⟩, -⟩ | ⟨r, e, ⟨rfl, hraised⟩, hexec⟩
  · omega
  · rcases hraised with ⟨-, rfl⟩ | ⟨-, -, -, hlen, hrange, -⟩
    · exact hexec
    · omega

/-- ENCODE inside its domain: the block value decides. -/
theorem exec_encode_of_domain (hn : s.signBit n = false) (hl : s.signBit len = false) (ho : s.signBit off = false)
    (hlen : s.mag len ≤ s.params.w / 8) (hrange : s.mag off + s.mag len ≤ s.params.bufBytes) :
    exec (.encode d n len off) s =
      if s.blockValue (s.mag off) (s.mag len) < s.mag n then
        .next ((s.setReg d (s.blockValue (s.mag off) (s.mag len)) false).finish .ok)
      else .next (s.failed .blockTooLarge) := by
  rw [State.blockValue_eq_beInt]
  rcases exec_cases (.encode d n len off) s with ⟨u, ⟨-, -, -, -, -, hlt, rfl⟩, hexec⟩ | ⟨r, e, ⟨rfl, hraised⟩, hexec⟩
  · rw [if_pos hlt]
    exact hexec
  · rcases hraised with ⟨hdomain, -⟩ | ⟨-, -, -, -, -, hge, rfl⟩
    · simp only [hn, hl, ho, Bool.false_eq_true, false_or] at hdomain
      omega
    · rw [if_neg (Nat.not_lt.2 hge)]
      exact hexec

/-- An ENCODE that ended without error has written the value of its bytes, and nothing else. -/
theorem eq_of_exec_encode_ok {t : State} (h : exec (.encode d n len off) s = .next t) (hok : t.err = .ok) :
    t = (s.setReg d (beInt (s.buf.readBytes (s.mag off) (s.mag len))) false).finish .ok := by
  rcases exec_next_cases h with ⟨u, ⟨-, -, -, -, -, -, rfl⟩, rfl⟩ | ⟨r, e, ⟨-, hraised⟩, rfl⟩
  · rfl
  · rcases hraised with ⟨-, rfl⟩ | ⟨-, -, -, -, -, -, rfl⟩
    · cases hok
    · cases hok

end

/-- Settles O53: inside the domain a value below n is written. -/
theorem encodeGivesTheBlockValue : Obligations.EncodeGivesTheBlockValue := by
  intro d n len off s hn hl ho hlen hrange hlt
  exact ⟨_, (exec_encode_of_domain hn hl ho hlen hrange).trans (if_pos hlt), ⟨rfl, rfl, rfl⟩, by simp, by simp,
    frame_setReg s s.random d _, fun _ => rfl, rfl, rfl⟩

/-- Settles O54: the two checks after the sign checks. -/
theorem encodeErrors : Obligations.EncodeErrors := fun _ _ _ _ _ hn hl ho =>
  ⟨exec_encode_domainError, fun hlen hrange hge =>
    (exec_encode_of_domain hn hl ho hlen hrange).trans (if_neg (Nat.not_lt.2 hge))⟩

/-- Settles O55: the value of L bytes is below 256^L, which a block size of at least L puts below n. -/
theorem encodeWithinTheBlockSizeSucceeds : Obligations.EncodeWithinTheBlockSizeSucceeds := by
  intro d' d n len off s u hn hl ho hblksize hsize hlen hrange
  rw [exec_blksize_of_nonneg hn] at hblksize
  obtain rfl := Host.Outcome.next.inj hblksize
  rw [State.val_finish, State.val_writeXs] at hsize
  have hlt := (s.blockValue_lt (s.mag off) (s.mag len)).trans_le (pow_le_of_le_blockIntSize hsize)
  exact ⟨_, (exec_encode_of_domain hn hl ho hlen hrange).trans (if_pos hlt), rfl, rfl, rfl⟩

/-! ### Strings in BUF (10_state.md R25) -/

theorem Memory.read_writeBytes_inside {m : Memory} (hm : m.wf) (bs : List Byte) (a : Nat) {i : Nat}
    (h : i < bs.length) : (m.writeBytes a bs).read (a + i) = bs[i] := by
  rw [Memory.read_writeBytes hm, if_pos (Nat.le_add_right a i), Nat.add_sub_cancel_left, List.getD_eq_getElem _ _ h]

theorem Memory.read_writeBytes_outside {m : Memory} (hm : m.wf) (bs : List Byte) {a a' : Nat}
    (h : a' < a ∨ a + bs.length ≤ a') : (m.writeBytes a bs).read a' = m.read a' := by
  rw [Memory.read_writeBytes hm]
  split
  · exact List.getD_eq_default _ _ (by omega)
  · rfl

theorem Memory.readBytes_writeBytes {m : Memory} (hm : m.wf) (bs : List Byte) (a : Nat) :
    (m.writeBytes a bs).readBytes a bs.length = bs :=
  List.ext_getElem (by simp) fun i _ hi => by rw [Memory.getElem_readBytes, Memory.read_writeBytes_inside hm bs a hi]

theorem bigEndian_getElem_toNat (m l i : Nat) (h : i < (bigEndian m l).length) :
    (bigEndian m l)[i].toNat = m / 256 ^ (l - 1 - i) % 256 := by
  simp [bigEndian]

/-! ### DECODE (44_block_codec.md R164) -/

section
variable {d m off : Reg} {s : State}

/-- DECODE outside BUF. -/
theorem exec_decode_domainError (h : s.params.bufBytes < s.mag off + byteLength (s.mag m)) :
    exec (.decode d m off) s = .next (s.failed .domainError) := by
  rw [← length_beBytes] at h
  rcases exec_cases (.decode d m off) s with ⟨u, ⟨-, -, hrange, -⟩, -⟩ | ⟨r, e, ⟨rfl, hraised⟩, hexec⟩
  · omega
  · rcases hraised with ⟨-, rfl⟩ | ⟨-, -, hrange, -⟩
    · exact hexec
    · omega

/-- DECODE inside BUF: the bytes decide. -/
theorem exec_decode_of_domain (hm : s.signBit m = false) (ho : s.signBit off = false)
    (hrange : s.mag off + byteLength (s.mag m) ≤ s.params.bufBytes) :
    exec (.decode d m off) s =
      if utf8WellFormed (beBytes (s.mag m)) = true then
        .next (({ s with buf := s.buf.writeBytes (s.mag off) (beBytes (s.mag m)) }.setReg d
          (beBytes (s.mag m)).length false).finish .ok)
      else .next (s.failed .invalidUtf8) := by
  rw [← length_beBytes] at hrange
  rcases exec_cases (.decode d m off) s with ⟨u, ⟨-, -, -, hutf, rfl⟩, hexec⟩ | ⟨r, e, ⟨rfl, hraised⟩, hexec⟩
  · rw [if_pos hutf]
    exact hexec
  · rcases hraised with ⟨hdomain, -⟩ | ⟨-, -, -, hutf, rfl⟩
    · simp only [hm, ho, Bool.false_eq_true, false_or] at hdomain
      omega
    · rw [if_neg (by simp [hutf])]
      exact hexec

end

/-- Settles O56: the bytes that are written, read back one by one. -/
theorem decodeWritesTheBytes : Obligations.DecodeWritesTheBytes := by
  intro d m off s l hwf hm ho hcount hrange hutf
  obtain rfl := (isByteCount_iff _ _).1 hcount
  rw [← beBytes_eq_bigEndian] at hutf
  refine ⟨_, (exec_decode_of_domain hm ho hrange).trans (if_pos hutf), ⟨rfl, rfl, rfl⟩, by simp, by simp,
    fun i hi => ?_, fun a houtside => ?_, ?_, rfl, rfl⟩
  · rw [State.finish_buf, State.setReg_buf, beBytes_eq_bigEndian,
      Memory.read_writeBytes_inside hwf _ _ (by simpa [bigEndian] using hi), bigEndian_getElem_toNat]
  · exact Memory.read_writeBytes_outside hwf _ (by rwa [length_beBytes])
  · have hbuf : Frame [d] s { s with buf := s.buf.writeBytes (s.mag off) (beBytes (s.mag m)) } :=
      { Frame.refl [d] s with }
    exact (hbuf.setReg (by simp) _ _).finish .ok

/-- Settles O57: the two checks after the sign checks. -/
theorem decodeErrors : Obligations.DecodeErrors := by
  intro d m off s l hm ho hcount
  obtain rfl := (isByteCount_iff _ _).1 hcount
  rw [← beBytes_eq_bigEndian]
  exact ⟨exec_decode_domainError, fun hrange hutf =>
    (exec_decode_of_domain hm ho hrange).trans (if_neg (by simp [hutf]))⟩

/-! ### The round trip (44_block_codec.md R166) -/

/-- The low digits of a number that ends in a string's value are the string. -/
theorem beDigits_beInt (bs : List Byte) (k : Nat) : beDigits (k * 256 ^ bs.length + beInt bs) bs.length = bs := by
  induction bs generalizing k with
  | nil => rfl
  | cons b bs ih =>
    have hsplit : k * 256 ^ (bs.length + 1) + beInt (b :: bs) = (k * 256 + b.toNat) * 256 ^ bs.length + beInt bs := by
      rw [beInt_cons]; ring
    have htop : ((k * 256 + b.toNat) * 256 ^ bs.length + beInt bs) >>> (8 * bs.length) = k * 256 + b.toNat := by
      rw [Nat.shiftRight_eq_div_pow, pow_mul, show (2 : Nat) ^ 8 = 256 from rfl, Nat.add_comm,
        Nat.add_mul_div_right _ _ (pow_pos (by decide) _), Nat.div_eq_of_lt (beInt_lt bs), Nat.zero_add]
    have hbyte : BitVec.ofNat 8 (k * 256 + b.toNat) = b := BitVec.eq_of_toNat_eq (by
      rw [BitVec.toNat_ofNat]
      have hb := b.isLt
      omega)
    rw [List.length_cons, hsplit, beDigits, htop, hbyte, ih]

theorem beInt_zero_cons (bs : List Byte) : beInt (0x00#8 :: bs) = beInt bs := by simp [beInt_cons]

/-- A string whose first byte is not 0 has as many bytes as its value. -/
theorem beBytes_beInt_of_ne_zero {b : Byte} (hb : b ≠ 0x00#8) (bs : List Byte) :
    beBytes (beInt (b :: bs)) = b :: bs := by
  have hpos : 1 ≤ b.toNat := Nat.one_le_iff_ne_zero.2 fun h => hb (BitVec.eq_of_toNat_eq h)
  have hcount : IsByteCount (beInt (b :: bs)) (b :: bs).length := by
    refine ⟨beInt_lt _, fun _ => ?_⟩
    rw [beInt_cons]
    exact (Nat.le_mul_of_pos_left _ hpos).trans (Nat.le_add_right _ _)
  rw [beBytes, ← (isByteCount_iff _ _).1 hcount]
  simpa using beDigits_beInt (b :: bs) 0

theorem beBytes_beInt (bs : List Byte) : beBytes (beInt bs) = bs.dropWhile (· == 0x00#8) := by
  induction bs with
  | nil => rfl
  | cons b bs ih =>
    by_cases hb : b = 0x00#8
    · rw [hb, beInt_zero_cons, ih, List.dropWhile_cons_of_pos (by decide)]
    · rw [beBytes_beInt_of_ne_zero hb, List.dropWhile_cons_of_neg (by simpa using hb)]

/-- 0x00 is a sequence of the table's first row. -/
theorem utf8WellFormed_zero_cons (bs : List Byte) : utf8WellFormed (0x00#8 :: bs) = utf8WellFormed bs := rfl

theorem utf8WellFormed_dropWhile_zero {bs : List Byte} (h : utf8WellFormed bs = true) :
    utf8WellFormed (bs.dropWhile (· == 0x00#8)) = true := by
  induction bs with
  | nil => exact h
  | cons b bs ih =>
    by_cases hb : b = 0x00#8
    · rw [hb, utf8WellFormed_zero_cons] at h
      rw [hb, List.dropWhile_cons_of_pos (by decide)]
      exact ih h
    · rwa [List.dropWhile_cons_of_neg (by simpa using hb)]

/-- DECODE of the value of a well-formed string that fits BUF writes the string without its leading 0x00 bytes. -/
theorem exec_decode_beInt {d m off : Reg} {s : State} {bs : List Byte} (hm : s.signBit m = false)
    (ho : s.signBit off = false) (hvalue : s.mag m = beInt bs) (hutf : utf8WellFormed bs = true)
    (hrange : s.mag off + bs.length ≤ s.params.bufBytes) :
    exec (.decode d m off) s =
      .next (({ s with buf := s.buf.writeBytes (s.mag off) (bs.dropWhile (· == 0x00#8)) }.setReg d
        (bs.dropWhile (· == 0x00#8)).length false).finish .ok) := by
  have hbytes : beBytes (s.mag m) = bs.dropWhile (· == 0x00#8) := by rw [hvalue, beBytes_beInt]
  have hshort := bs.length_dropWhile_le (· == 0x00#8)
  rw [exec_decode_of_domain hm ho (by rw [← length_beBytes, hbytes]; omega), hbytes,
    if_pos (utf8WellFormed_dropWhile_zero hutf)]

/-- Settles O58: ENCODE leaves the value of the bytes in its result register, and BUF as it was. -/
theorem codecRoundTrip : Obligations.CodecRoundTrip := by
  intro c d n len off off' s t hwf hne ho' hencode hok hutf hrange
  obtain rfl := eq_of_exec_encode_ok hencode hok
  refine ⟨_, exec_decode_beInt (by simp) (by simpa [hne] using ho') (by simp) hutf (by simpa [hne] using hrange),
    ⟨rfl, rfl, rfl⟩, by simp, ?_⟩
  simpa [hne] using Memory.readBytes_writeBytes hwf _ (s.mag off')

end Sys2Proof.Machine
end

section
/-! SUPPORT. Encryption and decryption with MODEXP (44_block_codec.md R166): Fermat's little theorem modulo each of the
two primes. -/

namespace Sys2Proof.Machine

theorem pow_modEq_self_of_prime {p k : Nat} (hp : p.Prime) (hk : 0 < k) (h : k ≡ 1 [MOD p - 1]) (m : Nat) :
    m ^ k ≡ m [MOD p] := by
  have hdvd : p - 1 ∣ k - 1 := (Nat.modEq_iff_dvd' hk).1 h.symm
  have hpow := Int.ModEq.pow_eq_pow hp hdvd hk Nat.one_pos m
  rw [pow_one] at hpow
  exact_mod_cast hpow

/-- The exponent is not 0: only p = q = 2 would allow that. -/
theorem pos_of_modEq_one {p q k : Nat} (hne : p ≠ q) (hk : k ≡ 1 [MOD (p - 1) * (q - 1)]) : 0 < k := by
  refine Nat.pos_of_ne_zero fun h0 => ?_
  subst h0
  have hone : (p - 1) * (q - 1) = 1 := Nat.dvd_one.1 ((Nat.modEq_iff_dvd' (Nat.zero_le 1)).1 hk)
  have hp1 : p - 1 = 1 := Nat.eq_one_of_mul_eq_one_right hone
  have hq1 : q - 1 = 1 := Nat.eq_one_of_mul_eq_one_left hone
  omega

/-- The power is m modulo p and modulo q, hence modulo p·q. -/
theorem pow_mod_mul_of_primes {p q k m : Nat} (hp : p.Prime) (hq : q.Prime) (hne : p ≠ q)
    (hk : k ≡ 1 [MOD (p - 1) * (q - 1)]) (hm : m < p * q) : m ^ k % (p * q) = m := by
  have hpos := pos_of_modEq_one hne hk
  have hmodp : m ^ k ≡ m [MOD p] := pow_modEq_self_of_prime hp hpos (hk.of_mul_right _) m
  have hmodq : m ^ k ≡ m [MOD q] := pow_modEq_self_of_prime hq hpos (hk.of_mul_left _) m
  have hcoprime := (Nat.coprime_primes hp hq).2 hne
  exact Nat.mod_eq_of_modEq ((Nat.modEq_and_modEq_iff_modEq_mul hcoprime).1 ⟨hmodp, hmodq⟩) hm

/-- Settles O51: the two MODEXPs compute (m^e)^d modulo n, and their operands d and n are not overwritten. -/
theorem rsaRoundTrip : Obligations.RsaRoundTrip := by
  intro c1 c2 m e d n s p q hd hn hsign hp hq hne hnpq hm hed
  obtain ⟨hsm, hse, hsd, hsn⟩ :
      s.signBit m = false ∧ s.signBit e = false ∧ s.signBit d = false ∧ s.signBit n = false := by simpa using hsign
  have hmod : s.mag n ≠ 0 := Nat.ne_zero_of_lt hm
  have hpower : (s.mag m ^ s.mag e % s.mag n) ^ s.mag d % s.mag n = s.mag m := by
    rw [← Nat.pow_mod, ← pow_mul, hnpq, pow_mod_mul_of_primes hp hq hne hed (hnpq ▸ hm)]
  refine ⟨_, _, exec_modexp_power hsm hse hsn hmod,
    exec_modexp_power (by simp) (by simpa [hd.symm] using hsd) (by simpa [hn.symm] using hsn)
      (by simpa [hn.symm] using hmod),
    ⟨rfl, rfl, rfl⟩, ⟨rfl, rfl, rfl⟩, ?_, by simp⟩
  simpa [hd.symm, hn.symm] using hpower

end Sys2Proof.Machine
end

section
/-! SUPPORT. The life cycle of a command: its acceptance, its codes, its commit within its frame, and the interrupt that
the commit raises (60_exceptions.md R201 to R208). -/

namespace Sys2Proof.Machine

/-! ### Acceptance and the engine's turn (60_exceptions.md R204, R205) -/

theorem engineStep_of_decode {s : State} {i : Instr} (hb : s.busy = true) (hi : decode s.cmd = .ok i) :
    engineStep s = exec i s := by
  simp [engineStep, State.fetch, hb, hi]

/-- Settles O6: the turn taken off the agenda leaves BUSY and CMD as they are. -/
theorem stepRunsDecodedCommand : Obligations.StepRunsDecodedCommand := by
  intro s i hb hi
  refine ⟨fun ha => ?_, fun rest ha => ?_⟩
  · rw [step_nil ha, State.afterTurn_of_nil ha, engineStep_of_decode hb hi]
  · rw [step_engine ha, State.afterTurn_of_cons ha]
    exact engineStep_of_decode hb hi

/-- A word written to CMD while BUSY is dropped (60_exceptions.md R205). -/
theorem step_dropsWord {s : State} {w : Word} {rest : List Turn} (hb : s.busy = true)
    (ha : s.agenda = .host (.write .word 0x0008#14 w) :: rest) :
    step s = .next { s with agenda := rest, ovr := true } := by
  rw [step_host ha, State.afterTurn_of_cons ha, hostStep_write w (by decide), place_cmd]
  simp [State.hostWrite, State.writeCmd, hb]

/-- Settles O7: BUSY decides between the drop and the acceptance. -/
theorem cmdWriteIsDroppedOrAccepted : Obligations.CmdWriteIsDroppedOrAccepted := fun _ _ _ ha =>
  ⟨fun hb => step_dropsWord hb ha, fun hb => step_acceptsWord hb ha⟩

/-! ### Errors and their codes (60_exceptions.md R201 to R203) -/

/-- Settles O11: a success ends with code 0, and an error leaves the old state with the commit's own fields. -/
theorem failedCommandWritesNothing : Obligations.FailedCommandWritesNothing := by
  intro i s t h hne
  rcases exec_next_cases h with ⟨u, -, rfl⟩ | ⟨r, e, -, rfl⟩
  · exact absurd rfl hne
  · exact ⟨rfl, rfl, rfl, rfl, rfl, rfl, rfl⟩

theorem ok_mem_allowedCodes (i : Instr) : ErrorCode.ok ∈ allowedCodes i := by
  cases i <;> exact List.mem_cons_self

/-- The error of a command is one that is listed for it. -/
theorem Raised.mem_allowedCodes {i : Instr} {s : State} {r : RandomSource} {e : ErrorCode} (h : Raised i s r e) :
    e ∈ allowedCodes i := by
  cases i with
  | mrtest n => obtain ⟨-, rfl, -⟩ := h; simp [allowedCodes]
  | genprime d b => obtain ⟨-, rfl, -⟩ | ⟨-, -, rfl, -⟩ := h <;> simp [allowedCodes]
  | egcd g x y a b => obtain ⟨-, ⟨-, rfl⟩ | ⟨-, -, rfl⟩⟩ := h <;> simp [allowedCodes]
  | modinv d e' phi => obtain ⟨-, ⟨-, rfl⟩ | ⟨-, -, -, -, rfl⟩⟩ := h <;> simp [allowedCodes]
  | modexp d base exp mod => obtain ⟨-, rfl, -⟩ := h; simp [allowedCodes]
  | blksize d n => obtain ⟨-, rfl, -⟩ := h; simp [allowedCodes]
  | encode d n len off => obtain ⟨-, ⟨-, rfl⟩ | ⟨-, -, -, -, -, -, rfl⟩⟩ := h <;> simp [allowedCodes]
  | decode d m off => obtain ⟨-, ⟨-, rfl⟩ | ⟨-, -, -, -, rfl⟩⟩ := h <;> simp [allowedCodes]

/-- The code of a failed search is listed for GENPRIME alone. -/
theorem genprime_of_primeGenerationFailure_mem {i : Instr} (h : ErrorCode.primeGenerationFailure ∈ allowedCodes i) :
    ∃ d b, i = .genprime d b := by
  cases i with
  | genprime d b => exact ⟨d, b, rfl⟩
  | mrtest _ | egcd _ _ _ _ _ | modinv _ _ _ | modexp _ _ _ _ | blksize _ _ | encode _ _ _ _ | decode _ _ _ =>
    simp [allowedCodes] at h

/-- Settles O12: the codes are those of the two outcomes of `exec`; an illegal word ends as O21 says. -/
theorem commandsEndWithListedCodes : Obligations.CommandsEndWithListedCodes := by
  refine ⟨fun i s t h => ?_, fun s t hc hw h => ?_⟩
  · rcases exec_next_cases h with ⟨u, -, rfl⟩ | ⟨r, e, hr, rfl⟩
    · exact ok_mem_allowedCodes i
    · exact hr.mem_allowedCodes
  · obtain ⟨-, hillegal, -⟩ := errSetByAcceptanceCommitAndReset s t h
    exact hillegal hc hw

/-! ### The frame of a command (60_exceptions.md R204) -/

/-- BUF, PRIME, the random source and the commit's own fields stand outside every frame. -/
theorem Frame.outside (ds : List Reg) (s : State) (buf : Memory) (busy done prime : Bool) (err : ErrorCode)
    (random : RandomSource) :
    Frame ds s { s with buf := buf, busy := busy, done := done, prime := prime, err := err, random := random } :=
  ⟨fun _ _ => rfl, fun _ _ => rfl, rfl, rfl, rfl, rfl, rfl, rfl, rfl⟩

/-- The writes of a command keep within the frame of its destinations. -/
theorem Wrote.frame {i : Instr} {s u : State} (h : Wrote i s u) : Frame i.destinations s u := by
  have hs := Frame.refl i.destinations s
  cases i with
  | mrtest n => obtain ⟨-, rfl⟩ := h; exact .outside ..
  | genprime d b => obtain ⟨-, -, c, -, rfl⟩ := h; exact (Frame.outside ..).setReg List.mem_cons_self _ _
  | egcd g x y a b =>
    obtain ⟨-, -, -, rfl⟩ := h
    obtain ⟨hg, hx, hy⟩ : g ∈ [g, x, y] ∧ x ∈ [g, x, y] ∧ y ∈ [g, x, y] := by simp
    exact ((hs.setReg hg _ _).setReg hx _ _).setReg hy _ _
  | modinv d e phi => obtain ⟨-, -, -, -, rfl⟩ := h; exact hs.setReg List.mem_cons_self _ _
  | modexp d base exp mod => obtain ⟨-, -, -, -, rfl⟩ := h; exact hs.setReg List.mem_cons_self _ _
  | blksize d n => obtain ⟨-, rfl⟩ := h; exact hs.setReg List.mem_cons_self _ _
  | encode d n len off => obtain ⟨-, -, -, -, -, -, rfl⟩ := h; exact hs.setReg List.mem_cons_self _ _
  | decode d m off => obtain ⟨-, -, -, -, rfl⟩ := h; exact (Frame.outside ..).setReg List.mem_cons_self _ _

/-- Only DECODE writes BUF. -/
theorem Wrote.buf_eq {i : Instr} {s u : State} (h : Wrote i s u) (hi : ∀ d m off, i ≠ .decode d m off) :
    u.buf = s.buf := by
  cases i with
  | mrtest n => obtain ⟨-, rfl⟩ := h; rfl
  | genprime d b => obtain ⟨-, -, c, -, rfl⟩ := h; rfl
  | egcd g x y a b => obtain ⟨-, -, -, rfl⟩ := h; rfl
  | modinv d e phi => obtain ⟨-, -, -, -, rfl⟩ := h; rfl
  | modexp d base exp mod => obtain ⟨-, -, -, -, rfl⟩ := h; rfl
  | blksize d n => obtain ⟨-, rfl⟩ := h; rfl
  | encode d n len off => obtain ⟨-, -, -, -, -, -, rfl⟩ := h; rfl
  | decode d m off => exact absurd rfl (hi d m off)

/-- Only MRTEST and GENPRIME draw. -/
theorem Wrote.random_eq {i : Instr} {s u : State} (h : Wrote i s u) (hmrtest : ∀ n, i ≠ .mrtest n)
    (hgenprime : ∀ d b, i ≠ .genprime d b) : u.random = s.random := by
  cases i with
  | mrtest n => exact absurd rfl (hmrtest n)
  | genprime d b => exact absurd rfl (hgenprime d b)
  | egcd g x y a b => obtain ⟨-, -, -, rfl⟩ := h; rfl
  | modinv d e phi => obtain ⟨-, -, -, -, rfl⟩ := h; rfl
  | modexp d base exp mod => obtain ⟨-, -, -, -, rfl⟩ := h; rfl
  | blksize d n => obtain ⟨-, rfl⟩ := h; rfl
  | encode d n len off => obtain ⟨-, -, -, -, -, -, rfl⟩ := h; rfl
  | decode d m off => obtain ⟨-, -, -, -, rfl⟩ := h; rfl

/-- Of all commands that end with an error GENPRIME alone takes draws. -/
theorem Raised.random_eq_of_ne_genprime {i : Instr} {s : State} {r : RandomSource} {e : ErrorCode} (h : Raised i s r e)
    (hi : ∀ d b, i ≠ .genprime d b) : r = s.random := by
  refine h.random_eq fun he => ?_
  obtain ⟨d, b, hdb⟩ := genprime_of_primeGenerationFailure_mem (he ▸ h.mem_allowedCodes)
  exact hi d b hdb

/-- Settles O10: the writes of a success keep within the frame, and an error writes nothing but what GENPRIME drew. -/
theorem everyCommandCommitsWithinItsFrame : Obligations.EveryCommandCommitsWithinItsFrame := by
  intro i s
  rcases exec_cases i s with ⟨u, hu, he⟩ | ⟨r, e, hr, he⟩
  · exact ⟨_, he, rfl, rfl, hu.frame.finish _, fun hi a => congrArg (·.read a) (hu.buf_eq hi), hu.prime_eq,
      hu.random_eq⟩
  · exact ⟨_, he, rfl, rfl, .outside .., fun _ _ => rfl, fun _ => rfl, fun _ => hr.random_eq_of_ne_genprime⟩

/-! ### The interrupt output (60_exceptions.md R207, R208) -/

/-- Settles O34, event by event: IE and DONE are control state, so the event of the step says what IRQ becomes. -/
theorem interruptRaisedAndAcknowledged : Obligations.InterruptRaisedAndAcknowledged := by
  intro s t h
  obtain ⟨e, he, ht⟩ := step_event h
  have hirq : t.irq = ((e.apply s.control).ie && (e.apply s.control).done) := by rw [← ht]; rfl
  refine ⟨?commit, ?setIe, ?clearIe, ?acknowledge, ?acceptOrReset⟩
  case commit =>
    rw [he.commits]
    rintro ⟨p, c, rfl⟩
    simp [hirq, Event.apply]
  case setIe =>
    rintro ⟨v, hw, hie, hsrst⟩
    obtain rfl := (he.writesCtrl v).1 ⟨hw, hsrst⟩
    simp [hirq, Event.apply, hie]
  case clearIe =>
    rintro ⟨v, hw, hie, hsrst⟩
    obtain rfl := (he.writesCtrl v).1 ⟨hw, hsrst⟩
    simp [hirq, Event.apply, hie]
  case acknowledge =>
    rw [he.clears]
    rintro ⟨v, rfl, hv⟩
    have hdone : v[1] = true := hv
    refine ⟨by simp [hirq, Event.apply, hdone], ?_, ?_⟩
    · rw [← State.control_err t, ht]; rfl
    · rw [← State.control_prime t, ht]; rfl
  case acceptOrReset =>
    rw [he.acceptsCommand, he.resets]
    rintro (⟨w, rfl⟩ | rfl) <;> simp [hirq, Event.apply]

end Sys2Proof.Machine
end

section
/-! SUPPORT. Resets and the end of every run: what power-on and soft reset leave (70_reset_and_hazards.md R231, R232),
and that an engine whose accesses are aligned comes to rest (R238). -/

namespace Sys2Proof.Machine

/-! ### Power-on reset (70_reset_and_hazards.md R231) -/

/-- A machine just powered on meets the invariant: only X and BUF need a bound, every field of STATUS is 0. -/
theorem State.inv_powerOn {p : Params} {x : Vector Nat 8} (sign : BitVec 8) {buf : Memory} (r : RandomSource)
    (hp : p.Legal) (hx : ∀ i : Reg, x[i] < 2 ^ p.w) (hwf : buf.wf) (hbelow : buf.below p.bufBytes) :
    (State.powerOn p x sign buf r).Inv where
  legal := hp
  mag_lt := hx
  buf_wf := hwf
  buf_below := hbelow
  done_of_busy := fun _ => rfl
  err_of_busy := fun _ => rfl
  err_written := by simp

/-- Settles O17: State.reset is one of the power-on states, with every register 0 and nothing listed in BUF. -/
theorem resetMeetsInvariant : Obligations.ResetMeetsInvariant :=
  ⟨State.inv_powerOn _ _ (by decide) (by decide) Memory.wf_nil (by decide),
    fun _ _ sign _ r => State.inv_powerOn sign r⟩

/-- Settles O33: the reset turn scrambles X, SIGN and BUF and clears the control state. -/
theorem powerOnReset : Obligations.PowerOnReset := by
  intro s rest ha
  refine ⟨s.afterTurn.powerOnReset, step_reset ha, BitVec.eq_of_toNat_eq (ctrlWord_toNat _),
    statusWord_eq_zero rfl rfl rfl rfl rfl, rfl, rfl, rfl, ?_, rfl⟩
  exact congrArg List.tail ha

/-! ### Soft reset (70_reset_and_hazards.md R232) -/

/-- A host write of 1 to bit 1 of CTRL performs soft reset. -/
theorem hostStep_softReset (s : State) {v : Word} (hv : v[1] = true) :
    hostStep s (.write .word 0x0000#14 v) = .next s.softReset := by
  rw [hostStep_write v (by decide), place_ctrl]
  simp [State.hostWrite, State.writeCtrl, hv]

theorem State.softReset_of_idle {s : State} (hb : s.busy = false) : s.softReset = s.resetControl := by
  simp [State.softReset, hb]

theorem State.softReset_of_busy {s : State} (hb : s.busy = true) : s.softReset = s.scramble.resetControl := by
  simp [State.softReset, hb]

/-- Settles O32: idle, only the control state is cleared; busy, X, SIGN and BUF are scrambled before that. -/
theorem softReset : Obligations.SoftReset := by
  intro s v hv
  rw [hostStep_softReset s hv]
  refine ⟨fun hb => ?_, fun hb => ⟨s.softReset, rfl, ?_, ?_⟩⟩
  · rw [State.softReset_of_idle hb, State.resetControl, hb]
  · rw [State.softReset_of_busy hb]; rfl
  · rw [State.softReset_of_busy hb]; rfl

/-! ### Every step takes one turn off the agenda (20_memory.md R60) -/

theorem State.softReset_agenda (s : State) : s.softReset.agenda = s.agenda := by
  unfold State.softReset
  split <;> rfl

theorem State.hostRead_agenda (s : State) (pl : Place) : (s.hostRead pl).agenda = s.agenda := by
  obtain ⟨v, free, h⟩ := s.hostRead_eq pl
  rw [h]

theorem State.unlessBusy_agenda {s t : State} (h : t.agenda = s.agenda) : (s.unlessBusy t).agenda = s.agenda := by
  unfold State.unlessBusy
  split
  · rfl
  · exact h

theorem State.hostWrite_agenda (s : State) (v : Word) (pl : Place) : (s.hostWrite v pl).agenda = s.agenda := by
  cases pl with
  | ctrl =>
    simp only [State.hostWrite, State.writeCtrl]
    split
    · exact s.softReset_agenda
    · rfl
  | cmd =>
    simp only [State.hostWrite, State.writeCmd]
    split <;> rfl
  | sign | limb _ _ | bufWord _ => exact State.unlessBusy_agenda rfl
  | status | param0 | param1 | reserved => rfl

theorem exec_agenda {i : Instr} {s t : State} (h : exec i s = .next t) : t.agenda = s.agenda := by
  rcases exec_next_cases h with ⟨u, hu, rfl⟩ | ⟨r, e, -, rfl⟩
  · exact hu.frame.agenda
  · rfl

theorem step_agenda {s t : State} (h : step s = .next t) : t.agenda = s.agenda.tail := by
  rcases step_cases h with ⟨-, hstep⟩ | ⟨rest, -, rfl⟩ | ⟨off, rest, -, -, rfl⟩ | ⟨off, v, rest, -, -, rfl⟩
  · rcases hstep with ⟨-, ⟨i, -, hx⟩ | ⟨r, -, rfl⟩⟩ | ⟨-, rfl⟩
    · exact exec_agenda hx
    · rfl
    · rfl
  · rfl
  · exact State.hostRead_agenda _ _
  · exact State.hostWrite_agenda _ v _

/-! ### Every run ends idle (70_reset_and_hazards.md R238) -/

/-- A step answers a next state unless the host's access at the head of the agenda is not aligned. -/
theorem step_next_of_aligned {s : State} (h : ∀ turn ∈ s.agenda, turn.isAligned = true) : ∃ t, step s = .next t := by
  cases hs : step s with
  | next t => exact ⟨t, rfl⟩
  | fault f => nomatch f
  | refused r =>
    obtain ⟨a, rest, ha, hna⟩ := (step_refused_iff s).1 ⟨r, hs⟩
    have haligned : a.isAligned = true := h (.host a) (by simp [ha])
    simp [hna] at haligned

/-- Settles O9, by induction on the agenda: each turn is taken off it, and then the engine commits what is in flight. -/
theorem everyRunEndsIdle : Obligations.EveryRunEndsIdle := by
  intro s halign
  induction hag : s.agenda generalizing s with
  | nil =>
    obtain ⟨t, ht, hidle⟩ := step_next_idle_of_engineTurn (.inl hag)
    exact ⟨t, run_succ_of_next ht 0, hidle, by rw [step_agenda ht, hag]; rfl⟩
  | cons turn rest ih =>
    obtain ⟨t, ht⟩ := step_next_of_aligned halign
    have hrest : t.agenda = rest := by rw [step_agenda ht, hag]; rfl
    have halign' : ∀ turn' ∈ t.agenda, turn'.isAligned = true := fun turn' hmem =>
      halign turn' (by rw [hag]; exact List.mem_cons_of_mem _ (hrest ▸ hmem))
    obtain ⟨u, hu, hidle, hempty⟩ := ih t halign' hrest
    exact ⟨u, (run_succ_of_next ht _).trans hu, hidle, hempty⟩

end Sys2Proof.Machine
end
